-- ==== Sys2Proof/Word.lean ====
section
/-! DEFINITION. The value types of the block: counters and fault codes (00_scope.md R7; 10_state.md R15, R27); addresses and command words are Nat. -/

namespace Sys2Proof

/-- A saturating counter: an unsigned integer in [0,3], stored in 2 bits (R7, R15). -/
abbrev Counter := BitVec 2

/-- The contents of the 3-bit fault register (R27). -/
abbrev FaultCode := BitVec 3

/-! A branch address (`pc`) and a command word are unsigned integers of PC_WIDTH and PC_WIDTH + 3 bits (R8, R11, R38, R41).
PC_WIDTH is a parameter held in State (`Cfg.pcWidth`), so both are Nat and their widths are checks: `Instr.wellFormed`, `wordFits`, `State.inv`. -/

end Sys2Proof
end

