-- ==== Sys2Proof/Config.lean ====
section
/-! DEFINITION. The construction parameters and model parameters of the block, their defaults, the configuration `State.reset` is given, and the one free value of the spec (00_scope.md R5, R9, R10; 10_state.md R24, R25). -/

namespace Sys2Proof

/-- The predictor kind, fixed at construction (R9). -/
inductive Kind where
  | alwaysTaken
  | localKind
  | gshare
  | tournament
  deriving DecidableEq, Repr

/-- The entry count N, one of the three admitted values (R5). -/
inductive Size where
  | n128
  | n1024
  | n4096
  deriving DecidableEq, Repr

/-- The reading of the tournament meta rule for a not-taken outcome (R10, R76, D8). -/
inductive MetaReading where
  | correctness
  | predictionOnly
  deriving DecidableEq, Repr

/-- Which sub-predictor of a tournament is meant (R24). -/
inductive Selector where
  | useLocal
  | useGlobal
  deriving DecidableEq, Repr, Inhabited

/-- What is fixed for the lifetime of one block, the kind apart: N (R22) and the three model parameters (R8, R10; log 4). -/
structure Cfg where
  size          : Size
  pcWidth       : Nat
  metaReading   : MetaReading
  strictPairing : Bool
  deriving DecidableEq, Repr

/-- PC_WIDTH by default (R8). -/
def Config.defaultPcWidth : Nat := 64

/-- The least admitted PC_WIDTH (R8). -/
def Config.leastPcWidth : Nat := 12

/-- The kind `State.reset` is constructed with.
DESIGN CHOICE (log 2): the spec gives a construction argument and no default. -/
def Config.resetKind : Kind := .tournament

/-- The configuration `State.reset` is constructed with: PC_WIDTH, META_NT_READING and STRICT_PAIRING at the spec's defaults (R8, R10).
DESIGN CHOICE (log 2): N = 128, for which the spec gives a construction argument and no default. -/
def Config.resetCfg : Cfg where
  size          := .n128
  pcWidth       := Config.defaultPcWidth
  metaReading   := .correctness
  strictPairing := true

/-- The free draw LASTUSED_RESET (R25, D10), a fresh one for each number of the draw counter (R97).
A free value (log 3): it has no body, so nothing can be proved of which selector it is. -/
opaque Config.lastUsedReset : Nat → Selector

end Sys2Proof
end

