-- ==== Sys2Proof/Syntax.lean ====
section
/-! DEFINITION. The instructions: one constructor per row of spec/opcode_table.json (30_encoding.md R39). -/

namespace Sys2Proof

/-- One constructor per row of the opcode table.
A PREDICT carries `pc`, a TRAIN carries `pc` and `outcome` (R40, R41), and RESERVED carries the command word its fault records (R54, R81). -/
inductive Instr where
  /-- IDLE (R51). -/
  | idle
  /-- PREDICT.ALWAYS_TAKEN (R79). -/
  | predictAlwaysTaken (pc : Nat)
  /-- PREDICT.LOCAL (R65). -/
  | predictLocal (pc : Nat)
  /-- PREDICT.GSHARE (R69). -/
  | predictGshare (pc : Nat)
  /-- PREDICT.TOURNAMENT (R73). -/
  | predictTournament (pc : Nat)
  /-- TRAIN.ALWAYS_TAKEN (R80). -/
  | trainAlwaysTaken (pc : Nat) (outcome : Bool)
  /-- TRAIN.LOCAL (R66). -/
  | trainLocal (pc : Nat) (outcome : Bool)
  /-- TRAIN.GSHARE (R70). -/
  | trainGshare (pc : Nat) (outcome : Bool)
  /-- TRAIN.TOURNAMENT (R77). -/
  | trainTournament (pc : Nat) (outcome : Bool)
  /-- RESERVED (R54). -/
  | reserved (word : Nat)
  deriving DecidableEq, Repr

/-- The KIND column of an instruction's row; `none` is the table's "any". -/
def Instr.kind : Instr → Option Kind
  | .idle => none
  | .predictAlwaysTaken _ => some .alwaysTaken
  | .predictLocal _ => some .localKind
  | .predictGshare _ => some .gshare
  | .predictTournament _ => some .tournament
  | .trainAlwaysTaken _ _ => some .alwaysTaken
  | .trainLocal _ _ => some .localKind
  | .trainGshare _ _ => some .gshare
  | .trainTournament _ _ => some .tournament
  | .reserved _ => none

/-- A command as the host sends it, before the configured KIND gives it its row (R39, R47). -/
inductive Command where
  | idle
  | predict (pc : Nat)
  | train (pc : Nat) (outcome : Bool)
  | reserved (word : Nat)
  deriving DecidableEq, Repr

/-- The command an instruction is the KIND-specific row of (R39). -/
def Instr.command : Instr → Command
  | .idle => .idle
  | .predictAlwaysTaken pc => .predict pc
  | .predictLocal pc => .predict pc
  | .predictGshare pc => .predict pc
  | .predictTournament pc => .predict pc
  | .trainAlwaysTaken pc o => .train pc o
  | .trainLocal pc o => .train pc o
  | .trainGshare pc o => .train pc o
  | .trainTournament pc o => .train pc o
  | .reserved w => .reserved w

end Sys2Proof
end

