-- ==== Sys2Proof/WellFormed.lean ====
section
/-! DEFINITION. When an instruction is one that a block of a given PC_WIDTH and KIND can be sent (30_encoding.md R38, R39, R41, R54). -/

namespace Sys2Proof

/-- What can be wrong with an instruction as syntax. -/
inductive IllFormed where
  /-- The pc has more than PC_WIDTH bits (R41). -/
  | pcTooWide
  /-- The row belongs to another KIND than the block's (R39). -/
  | otherKind
  /-- The word of a RESERVED has more than PC_WIDTH + 3 bits (R38). -/
  | wordTooWide
  /-- The word of a RESERVED does not hold op = 11 (R39). -/
  | notReservedOp
  deriving DecidableEq, Repr

/-- The pc fits in PC_WIDTH bits (R41). -/
def pcFits (pcWidth : Nat) (pc : Nat) : Bool := decide (pc < 2 ^ pcWidth)

/-- The word fits in PC_WIDTH + 3 bits (R38). -/
def wordFits (pcWidth : Nat) (w : Nat) : Bool := decide (w < 2 ^ (pcWidth + 3))

/-- What is wrong with a PREDICT or TRAIN row of kind `k` and address `pc` at a block of kind `kind`, if anything. -/
def checkRow (pcWidth : Nat) (kind k : Kind) (pc : Nat) : Option IllFormed :=
  if k ≠ kind then some .otherKind
  else if pcFits pcWidth pc then none
  else some .pcTooWide

/-- What is wrong with an instruction at a block of PC_WIDTH `pcWidth` and kind `kind`, if anything. -/
def Instr.check (pcWidth : Nat) (kind : Kind) : Instr → Option IllFormed
  | .idle => none
  | .predictAlwaysTaken pc => checkRow pcWidth kind .alwaysTaken pc
  | .predictLocal pc => checkRow pcWidth kind .localKind pc
  | .predictGshare pc => checkRow pcWidth kind .gshare pc
  | .predictTournament pc => checkRow pcWidth kind .tournament pc
  | .trainAlwaysTaken pc _ => checkRow pcWidth kind .alwaysTaken pc
  | .trainLocal pc _ => checkRow pcWidth kind .localKind pc
  | .trainGshare pc _ => checkRow pcWidth kind .gshare pc
  | .trainTournament pc _ => checkRow pcWidth kind .tournament pc
  | .reserved w =>
    if w % 4 ≠ 3 then some .notReservedOp
    else if wordFits pcWidth w then none
    else some .wordTooWide

/-- The instruction can be sent to a block of PC_WIDTH `pcWidth` and kind `kind`. -/
def Instr.wellFormed (pcWidth : Nat) (kind : Kind) (i : Instr) : Bool :=
  (i.check pcWidth kind).isNone

end Sys2Proof
end

