-- ==== Sys2Proof/Decode.lean ====
section
/-! DEFINITION. The command word's fields, the decoder and the encoder, the encodings of the configuration and of the response, and the configuration's derived constants (30_encoding.md R38 to R47; 00_scope.md R5). -/

namespace Sys2Proof

/-- The unsigned field `v[hi:lo]` (R11). -/
def bits (v hi lo : Nat) : Nat := (v >>> lo) % 2 ^ (hi + 1 - lo)

/-- The op field, word[1:0] (R38). -/
def wordOp (w : Nat) : Nat := bits w 1 0

/-- The outcome field, word[2] (R38, R40). -/
def wordOutcome (w : Nat) : Bool := bits w 2 2 == 1

/-- The pc field, word[PC_WIDTH+2:3], unsigned and unscaled (R38, R41, R46). -/
def wordPc (pcWidth : Nat) (w : Nat) : Nat := bits w (pcWidth + 2) 3

/-- Why a number is not decoded. -/
inductive DecodeError where
  /-- It has more than the PC_WIDTH + 3 bits of a command word (R38). -/
  | notACommandWord (w : Nat)
  deriving DecidableEq, Repr

/-- The command a word of PC_WIDTH + 3 bits encodes, the same for every KIND and N (R38, R39, R45, R47). -/
def decodeCommand (pcWidth : Nat) (w : Nat) : Except DecodeError Command :=
  if wordFits pcWidth w then
    .ok (if wordOp w = 0 then .idle
      else if wordOp w = 1 then .predict (wordPc pcWidth w)
      else if wordOp w = 2 then .train (wordPc pcWidth w) (wordOutcome w)
      else .reserved w)
  else .error (.notACommandWord w)

/-- The row of the opcode table that a command stands for at a block of kind `k` (R39, R49). -/
def Command.row (k : Kind) : Command → Instr
  | .idle => .idle
  | .predict pc =>
    match k with
    | .alwaysTaken => .predictAlwaysTaken pc
    | .localKind => .predictLocal pc
    | .gshare => .predictGshare pc
    | .tournament => .predictTournament pc
  | .train pc o =>
    match k with
    | .alwaysTaken => .trainAlwaysTaken pc o
    | .localKind => .trainLocal pc o
    | .gshare => .trainGshare pc o
    | .tournament => .trainTournament pc o
  | .reserved w => .reserved w

/-- The instruction a word is at a block of PC_WIDTH `pcWidth` and kind `k`: the decoded command, its row chosen by the KIND (R39, R47). -/
def decode (pcWidth : Nat) (k : Kind) (w : Nat) : Except DecodeError Instr :=
  match decodeCommand pcWidth w with
  | .ok c => .ok (c.row k)
  | .error e => .error e

/-- `word = (pc << 3) | (outcome << 2) | op` (R38). -/
def packWord (pc : Nat) (outcome : Bool) (op : Nat) : Nat :=
  (pc <<< 3) ||| (outcome.toNat <<< 2) ||| op

/-- The word of a command; a field the command ignores is written 0, as the assembler writes it (R38, R48). -/
def Command.encode : Command → Nat
  | .idle => packWord 0 false 0
  | .predict pc => packWord pc false 1
  | .train pc o => packWord pc o 2
  | .reserved w => w

/-- The word of an instruction (R38, R39). -/
def encode (i : Instr) : Nat := i.command.encode

/-- The word with the fields its command ignores cleared: `outcome` and `pc` of an IDLE, `outcome` of a PREDICT (R40, R41, R45). -/
def canonicalWord (w : Nat) : Nat :=
  if wordOp w = 0 then 0
  else if wordOp w = 1 then (w >>> 3 <<< 3) ||| 1
  else w

/-- The instruction the decoder reads from an opcode-table word at the block of `State.reset` (`Config.resetKind`, `Config.resetCfg`).
The word alone does not fix the row of a PREDICT or TRAIN: the KIND does (R39, R47; log 11). -/
def decodeTableWord (nbits w : Nat) : Option Instr :=
  match decode Config.resetCfg.pcWidth Config.resetKind (w % 2 ^ nbits) with
  | .ok i => some i
  | .error _ => none

/-! Encodings and constants of the configuration. -/

/-- N (R5). -/
def Size.entries : Size → Nat
  | .n128 => 128
  | .n1024 => 1024
  | .n4096 => 4096

/-- W = log2(N) (R5). -/
def Size.width : Size → Nat
  | .n128 => 7
  | .n1024 => 10
  | .n4096 => 12

/-- MASK = N - 1 (R5). -/
def Size.mask (n : Size) : Nat := n.entries - 1

/-- NB, the bucket count of the local history table, for every N (R6). -/
def bucketCount : Nat := 128

/-- BMASK, the bucket mask, for every N (R6). -/
def bucketMask : Nat := 0x7F

/-- The entry count as an integer; every other integer is refused (R44, R83). -/
def Size.ofEntryCount (entryCount : Int) : Option Size :=
  if entryCount = 128 then some .n128
  else if entryCount = 1024 then some .n1024
  else if entryCount = 4096 then some .n4096
  else none

/-- The 2-bit SIZE code; code 3 is reserved (R44). -/
def Size.ofCode (code : BitVec 2) : Option Size :=
  match code.toNat with
  | 0 => some .n128
  | 1 => some .n1024
  | 2 => some .n4096
  | _ => none

/-- The SIZE code of an entry count (R44). -/
def Size.code : Size → BitVec 2
  | .n128 => 0
  | .n1024 => 1
  | .n4096 => 2

/-- The kind string of the source's construction; every other string is refused (R43, R82). -/
def Kind.ofString (kind : String) : Option Kind :=
  if kind = "always_taken" then some .alwaysTaken
  else if kind = "local" then some .localKind
  else if kind = "gshare" then some .gshare
  else if kind = "tournament" then some .tournament
  else none

/-- The 2-bit KIND code; every code is a kind (R43). -/
def Kind.ofCode (code : BitVec 2) : Kind :=
  match code.toNat with
  | 0 => .alwaysTaken
  | 1 => .localKind
  | 2 => .gshare
  | _ => .tournament

/-- The KIND code of a kind (R43). -/
def Kind.code : Kind → BitVec 2
  | .alwaysTaken => 0
  | .localKind => 1
  | .gshare => 2
  | .tournament => 3

/-- The encoding of `lastUsed`: 0 = LOCAL, 1 = GLOBAL (R24). -/
def Selector.code : Selector → BitVec 1
  | .useLocal => 0
  | .useGlobal => 1

end Sys2Proof
end

