-- ==== Sys2Proof/Machine/Predictor.lean ====
section
/-! DEFINITION. The predictor state of each kind (10_state.md R15 to R21, R24) and its values after construction (R25). -/

namespace Sys2Proof.Machine

/-- A table of counters, indexed from 0; `State.inv` says its length is N (R16). -/
abbrev CounterTable := List Counter

/-- The state of a local predictor (R18): `hist` holds one W-bit history register per bucket. -/
structure LocalState where
  pht  : CounterTable
  hist : List Nat
  deriving DecidableEq, Repr

/-- The state of a gshare predictor (R19): `ghr` is the one shared W-bit history register. -/
structure GshareState where
  pht : CounterTable
  ghr : Nat
  deriving DecidableEq, Repr

/-- The state of a tournament predictor (R20, R24). -/
structure TournamentState where
  L         : LocalState
  G         : GshareState
  metaTable : CounterTable
  lastUsed  : Selector
  deriving DecidableEq, Repr

/-- The predictor state of the configured KIND, exactly one of the four (R14, R21).
The constructor is the KIND of the block (R22), stored here and nowhere else. -/
inductive Predictor where
  | alwaysTaken
  | ofLocal (L : LocalState)
  | ofGshare (G : GshareState)
  | ofTournament (T : TournamentState)
  deriving DecidableEq, Repr

/-- The KIND of a predictor state (R9, R14). -/
def Predictor.kind : Predictor → Kind
  | .alwaysTaken => .alwaysTaken
  | .ofLocal _ => .localKind
  | .ofGshare _ => .gshare
  | .ofTournament _ => .tournament

/-- The weakly-taken counter, every counter's construction value (R7, R15). -/
def weaklyTaken : Counter := 2

/-- A table of N counters at their construction value (R16, R25). -/
def freshTable (n : Size) : CounterTable := List.replicate n.entries weaklyTaken

/-- A local predictor after construction (R25). -/
def freshLocal (n : Size) : LocalState where
  pht  := freshTable n
  hist := List.replicate bucketCount 0

/-- A gshare predictor after construction (R25). -/
def freshGshare (n : Size) : GshareState where
  pht := freshTable n
  ghr := 0

/-- The predictor state of a kind after construction, with the draw of LASTUSED_RESET (R25). -/
def freshPredictor (k : Kind) (n : Size) (draw : Selector) : Predictor :=
  match k with
  | .alwaysTaken => .alwaysTaken
  | .localKind => .ofLocal (freshLocal n)
  | .gshare => .ofGshare (freshGshare n)
  | .tournament => .ofTournament { L := freshLocal n, G := freshGshare n, metaTable := freshTable n, lastUsed := draw }

end Sys2Proof.Machine
end

