-- ==== Sys2Proof/Machine/State.lean ====
section
/-! DEFINITION. The state of one block (10_state.md R14, R22, R26, R27), the host's inputs and the block's answers, the reasons a step can stop, and the state after construction or reset (R25). -/

namespace Sys2Proof.Machine

/-- What a command raises, with the information the spec's fault table records of it (R81). -/
inductive Raise where
  /-- INDEX_OUT_OF_RANGE, from a table access (R60): the index. -/
  | indexOutOfRange (index : Nat)
  /-- RESERVED_COMMAND, from the dispatch (R54): the command word. -/
  | reservedCommand (word : Nat)
  /-- PROTOCOL_VIOLATION, from the pairing check (R52): the TRAIN's pc and `pairPc`. -/
  | protocolViolation (pc : Nat) (pairPc : Option Nat)
  deriving DecidableEq, Repr

/-- What an accepted command returns: PREDICT a prediction, TRAIN and IDLE nothing (R42). -/
inductive Response where
  | none
  | pred (b : Bool)
  deriving DecidableEq, Repr

/-- The outcome of one command as the host sees it: `Ok` with a response, or `Fault` with the code (R13, R28, R42).
`info` is what the raise recorded; a block that was already faulted records nothing new (R85). -/
inductive Answer where
  | ok (resp : Response)
  | fault (code : FaultCode) (info : Option Raise)
  deriving DecidableEq, Repr

/-- What the host can do to the block (R104). -/
inductive Input where
  /-- A command word on the command input (R38). -/
  | command (word : Nat)
  /-- The reset input (R97). -/
  | reset
  /-- Construction at the string interface, `newPredictor(kind, entryCount)` (R43, R44, R96). -/
  | construct (kind : String) (entryCount : Int)
  /-- Construction at the encoded interface, `KIND` and `SIZE` (R43, R44, R96). -/
  | constructCoded (kind size : BitVec 2)
  deriving DecidableEq, Repr

/-- The state of one block instance (R14), followed by the model's own fields. -/
structure State where
  /-- N (R22) and the model parameters (R8, R10). -/
  cfg       : Cfg
  /-- The predictor state; its constructor is the KIND (R14, R22). -/
  predictor : Predictor
  /-- The pairing monitor (R26). -/
  pairPc    : Option Nat
  /-- The fault register (R27). -/
  fault     : FaultCode
  /-- The model's own: how many draws of LASTUSED_RESET have been made (log 3). -/
  draws     : Nat
  /-- The model's own: the answer of the last command, an output of the spec's step (R13; log 5). -/
  answer    : Option Answer
  /-- The model's own: the host's inputs not taken yet, oldest first (R104; log 1). -/
  inputs    : List Input
  deriving DecidableEq, Repr

/-- The KIND of the block (R9, R22). -/
def State.kind (s : State) : Kind := s.predictor.kind

/-- Why a construction produces no block (R81).
A runtime fault is no constructor of this type: its entry is a next state (`State.raise`, log 6). -/
inductive Fault where
  /-- UNSUPPORTED_KIND, raised by a construction whose kind string is none of the four (R82).
  Safe: the spec gives no block after it. -/
  | unsupportedKind (kind : String)
  /-- INVALID_CONFIGURATION, raised by a construction whose entry count is not admitted (R83).
  Safe: the spec gives no block after it. -/
  | invalidConfiguration (entryCount : Int)
  /-- INVALID_CONFIGURATION, raised by a construction with a reserved SIZE code (R44, R83).
  DESIGN CHOICE (log 14): it records the SIZE code, since such a construction has no entry count to record (R81).
  Safe: the spec gives no block after it. -/
  | invalidSizeCode (size : BitVec 2)
  deriving DecidableEq, Repr

/-- Why the model gives no meaning. -/
inductive Refusal where
  /-- Raised by `exec`'s arm of an instruction that has no meaning yet; no arm is such a one.
  Safe: the model stops. -/
  | notModelled (mnemonic : String)
  /-- Raised by `step` on a pending number of more than PC_WIDTH + 3 bits, which the command input cannot carry (R38; log 7).
  Safe: the model stops. -/
  | notACommandWord (word : Nat)
  /-- Raised by a meaning run on a block of another KIND than its row's, which no word of that block decodes to (R39, R47; log 8).
  Safe: the model stops. -/
  | otherKind
  deriving DecidableEq, Repr

/-- What a step or a meaning ends in. -/
abbrev Result := Host.Outcome State Fault Refusal

/-- The block after construction or reset with a configuration (R25, R96, R97): the spec's values, the next draw of LASTUSED_RESET, no answer, and the host's further inputs. -/
def State.fresh (cfg : Cfg) (k : Kind) (draws : Nat) (inputs : List Input) : State where
  cfg       := cfg
  predictor := freshPredictor k cfg.size (Config.lastUsedReset draws)
  pairPc    := none
  fault     := 0
  draws     := draws + 1
  answer    := none
  inputs    := inputs

/-- The machine right after reset: R25's values in the configuration of `Config.resetCfg` (log 2), with nothing on the inputs (log 1). -/
def State.reset : State := State.fresh Config.resetCfg Config.resetKind 0 []

end Sys2Proof.Machine
end

