-- ==== Sys2Proof/Machine/Flags.lean ====
section
/-! DEFINITION. The one-bit decisions of the block: the taken bias of a counter, the selection, the correctness bits and the meta movement.
The block has no flags register (10_state.md R23); these are the values its rules compute and use at once. -/

namespace Sys2Proof.Machine

/-- The taken bias of a counter: `c >= 2` (R15, R56). -/
def taken (c : Counter) : Bool := decide (2 ≤ c.toNat)

/-- `SEL(c)`: GLOBAL if `c >= 2`, else LOCAL (R72). -/
def sel (c : Counter) : Selector := if 2 ≤ c.toNat then .useGlobal else .useLocal

/-- `min(c + 1, 3)`, computed exactly and then stored in 2 bits (R57). -/
def incremented (c : Counter) : Counter := BitVec.ofNat 2 (min (c.toNat + 1) 3)

/-- `max(c - 1, 0)`, computed exactly and then stored in 2 bits (R58). -/
def decremented (c : Counter) : Counter := BitVec.ofNat 2 (max ((c.toNat : Int) - 1) 0).toNat

/-- The correctness bits `(lr, gr)` of the two sub-predictions for an outcome, under each reading of the not-taken case (R76). -/
def correctness (reading : MetaReading) (pl pg o : Bool) : Bool × Bool :=
  match reading with
  | .correctness => (pl == o, pg == o)
  | .predictionOnly => (pl, pg)

/-- The movement of a meta-counter: +1 toward GLOBAL, -1 toward LOCAL, 0 (R74). -/
inductive MetaDelta where
  | plusOne
  | minusOne
  | zero
  deriving DecidableEq, Repr

/-- `META_DELTA(lr, gr, lu)`, the source's exact rule table (R74; the table wins over the prose, 90_conflicts.md C1). -/
def metaDelta (lr gr : Bool) (lu : Selector) : MetaDelta :=
  match lr, gr with
  | true, true =>
    match lu with
    | .useGlobal => .plusOne
    | .useLocal => .minusOne
  | true, false => .minusOne
  | false, true => .plusOne
  | false, false => .zero

end Sys2Proof.Machine
end

