-- ==== Sys2Proof/Machine/CounterTable.lean ====
section
/-! DEFINITION. Whole-entry access to the index spaces (20_memory.md R30; 00_scope.md R12) and the operations of a saturating counter table (41_counter_table.md R56 to R60). -/

namespace Sys2Proof.Machine

/-- `TblRead(T, i)` after `IDX_CHECK(T, i)`: entry i, or INDEX_OUT_OF_RANGE (R12, R30, R60).
The check stands before the local history table too (log 10); under `State.inv` it never fires (R31). -/
def tblRead {α : Type} (t : List α) (i : Nat) : Except Raise α :=
  match t[i]? with
  | some v => .ok v
  | none => .error (.indexOutOfRange i)

/-- `TblWrite(T, i, v)`: entry i becomes v, every other entry unchanged (R12, R30). -/
def tblWrite {α : Type} (t : List α) (i : Nat) (v : α) : List α := t.set i v

/-- `CT_READ(T, i)` (R56). -/
def ctRead (t : CounterTable) (i : Nat) : Except Raise Bool :=
  match tblRead t i with
  | .ok c => .ok (taken c)
  | .error e => .error e

/-- `CT_INC(T, i)` (R57). -/
def ctInc (t : CounterTable) (i : Nat) : Except Raise CounterTable :=
  match tblRead t i with
  | .ok c => .ok (tblWrite t i (incremented c))
  | .error e => .error e

/-- `CT_DEC(T, i)` (R58). -/
def ctDec (t : CounterTable) (i : Nat) : Except Raise CounterTable :=
  match tblRead t i with
  | .ok c => .ok (tblWrite t i (decremented c))
  | .error e => .error e

/-- `CT_TRAIN(T, i, o)` (R59). -/
def ctTrain (t : CounterTable) (i : Nat) (o : Bool) : Except Raise CounterTable :=
  if o then ctInc t i else ctDec t i

/-- `META_APPLY(T, mi, d)` on the meta-table (R75). -/
def metaApply (t : CounterTable) (mi : Nat) (d : MetaDelta) : Except Raise CounterTable :=
  match d with
  | .plusOne => ctInc t mi
  | .minusOne => ctDec t mi
  | .zero => .ok t

end Sys2Proof.Machine
end

