-- ==== Sys2Proof/Machine/Operands.lean ====
section
/-! DEFINITION. The indices a predictor forms from a command's pc and its state (30_encoding.md R46; 42_local.md R63, R64; 43_gshare.md R68; 44_tournament.md R72). -/

namespace Sys2Proof.Machine

/-- `LOCAL_BUCKET(pc) = pc & 0x7F`, for every N (R63). -/
def localBucket (pc : Nat) : Nat := pc &&& bucketMask

/-- `LOCAL_INDEX(L, pc) = L.hist[LOCAL_BUCKET(pc)]` (R63). -/
def localIndex (l : LocalState) (pc : Nat) : Except Raise Nat := tblRead l.hist (localBucket pc)

/-- `GSHARE_INDEX(G, pc) = (pc & MASK) XOR G.ghr` (R68). -/
def gshareIndex (n : Size) (g : GshareState) (pc : Nat) : Nat := (pc &&& n.mask) ^^^ g.ghr

/-- `META_INDEX(pc) = pc & MASK` (R72). -/
def metaIndex (n : Size) (pc : Nat) : Nat := pc &&& n.mask

/-- `HIST_NEXT(i, o) = ((i << 1) | o) & MASK`, from the index just used (R64). -/
def histNext (n : Size) (i : Nat) (o : Bool) : Nat := ((i <<< 1) ||| o.toNat) &&& n.mask

end Sys2Proof.Machine
end

