-- ==== Sys2Proof/Machine/Ops.lean ====
section
/-! DEFINITION. What every command shares: the faulted state, taking a fault, the pairing check and monitor, completing a command (40_dispatch.md R49 to R53; 60_exceptions.md R81, R86); and the host's other inputs: reset and construction (70_reset_and_hazards.md R96, R97). -/

namespace Sys2Proof.Machine

/-- `NONE` (R81). -/
def noFault : FaultCode := 0

/-- The code of a raised fault (R81). -/
def Raise.code : Raise → FaultCode
  | .indexOutOfRange _ => 3
  | .reservedCommand _ => 4
  | .protocolViolation _ _ => 5

/-- The code a failed construction reports (R81). -/
def Fault.code : Fault → FaultCode
  | .unsupportedKind _ => 1
  | .invalidConfiguration _ => 2
  | .invalidSizeCode _ => 2

/-- Two response bits: `resp[1] = valid`, `resp[0] = pred` (R42). -/
def Response.bits : Response → BitVec 2
  | .none => 0
  | .pred b => BitVec.ofNat 2 (2 + b.toNat)

/-- Fault entry (R86): the fault register takes the code and the host sees it.
Every write the command made before is discarded, since `s` is the state before the command. -/
def State.raise (s : State) (r : Raise) : State :=
  { s with fault := r.code, answer := some (.fault r.code (some r)) }

/-- The answer of a faulted block: its first code again, nothing else changed (R50, R87). -/
def State.answerFaulted (s : State) : State :=
  { s with answer := some (.fault s.fault none) }

/-- Run a command unless the block is faulted (R49, R50). -/
def whenRunning (s : State) (k : Result) : Result :=
  if s.fault = noFault then k else .next s.answerFaulted

/-- The return of a command that answers nothing and writes nothing (R51). -/
def State.answerNone (s : State) : State := { s with answer := some (.ok .none) }

/-- A PREDICT of `pc` ends (R49, R53): `p` is what its kind rule gave, the predictor state and the prediction, or a raise. -/
def State.finishPredict (s : State) (pc : Nat) (p : Except Raise (Predictor × Bool)) : State :=
  match p with
  | .ok (q, b) => { s with predictor := q, pairPc := some pc, answer := some (.ok (.pred b)) }
  | .error r => s.raise r

/-- `PAIR_CHECK(s, pc)` (R52). -/
def State.pairCheck (s : State) (pc : Nat) : Except Raise Unit :=
  if s.cfg.strictPairing = true ∧ s.pairPc ≠ some pc then .error (.protocolViolation pc s.pairPc)
  else .ok ()

/-- A TRAIN of `pc` ends (R49, R52, R53): the pairing check first, then the predictor state its kind rule gave, or a raise. -/
def State.finishTrain (s : State) (pc : Nat) (p : Except Raise Predictor) : State :=
  match s.pairCheck pc with
  | .error r => s.raise r
  | .ok () =>
    match p with
    | .ok q => { s with predictor := q, pairPc := none, answer := some (.ok .none) }
    | .error r => s.raise r

/-- The word a command input with nothing on it carries: IDLE's (R39, R51; log 9). -/
def idleWord : Nat := 0

/-- The input the block takes next and the state without it; with nothing pending, the IDLE word (log 9). -/
def State.takeInput (s : State) : Input × State :=
  match s.inputs with
  | [] => (.command idleWord, s)
  | i :: rest => (i, { s with inputs := rest })

/-- The reset input: construction again with the block's own configuration, faulted or not, with a fresh draw (R97). -/
def State.resetInput (s : State) : State := State.fresh s.cfg s.kind s.draws s.inputs

/-- `newPredictor(kind, entryCount)`: the configuration, or why there is no block; the kind is checked first (R82 to R84, R96). -/
def newPredictor (kind : String) (entryCount : Int) : Except Fault (Kind × Size) :=
  match Kind.ofString kind with
  | none => .error (.unsupportedKind kind)
  | some k =>
    match Size.ofEntryCount entryCount with
    | none => .error (.invalidConfiguration entryCount)
    | some n => .ok (k, n)

/-- Construction at the encoded interface, where every KIND code is a kind (R43, R44, R82, R83).
DESIGN CHOICE (log 14): the fault of a reserved SIZE code records that code. -/
def newPredictorCoded (kind size : BitVec 2) : Except Fault (Kind × Size) :=
  match Size.ofCode size with
  | none => .error (.invalidSizeCode size)
  | some n => .ok (Kind.ofCode kind, n)

/-- A construction ends: the new block in the place of the old one, with the same model parameters, or no block (R83, R84, R96; log 12). -/
def State.constructed (s : State) (c : Except Fault (Kind × Size)) : Result :=
  match c with
  | .ok (k, n) => .next (State.fresh { s.cfg with size := n } k s.draws s.inputs)
  | .error f => .fault f

end Sys2Proof.Machine
end

