-- ==== Sys2Proof/Machine/AlwaysTaken.lean ====
section
/-! DEFINITION. The always-taken predictor (45_always_taken.md R79, R80). -/

namespace Sys2Proof.Machine

/-- PREDICT.ALWAYS_TAKEN (R79): taken, for every pc. -/
def execPredictAlwaysTaken (pc : Nat) (s : State) : Result :=
  whenRunning s <|
    match s.predictor with
    | .alwaysTaken => .next (s.finishPredict pc (.ok (.alwaysTaken, true)))
    | _ => .refused .otherKind

/-- TRAIN.ALWAYS_TAKEN (R80): no predictor state to write; the outcome is ignored. -/
def execTrainAlwaysTaken (pc : Nat) (_outcome : Bool) (s : State) : Result :=
  whenRunning s <|
    match s.predictor with
    | .alwaysTaken => .next (s.finishTrain pc (.ok .alwaysTaken))
    | _ => .refused .otherKind

end Sys2Proof.Machine
end

