-- ==== Sys2Proof/Machine/Control.lean ====
section
/-! DEFINITION. IDLE and the reserved command (40_dispatch.md R51, R54). -/

namespace Sys2Proof.Machine

/-- IDLE (R51): no state written, the response is none. -/
def execIdle (s : State) : Result := whenRunning s (.next s.answerNone)

/-- RESERVED (R54): always takes RESERVED_COMMAND, with the word. -/
def execReserved (word : Nat) (s : State) : Result :=
  whenRunning s (.next (s.raise (.reservedCommand word)))

end Sys2Proof.Machine
end

