-- ==== Sys2Proof/Machine/Gshare.lean ====
section
/-! DEFINITION. The global (gshare) predictor (43_gshare.md R69, R70). -/

namespace Sys2Proof.Machine

/-- `GSHARE_PRED(G, pc)` (R69). -/
def gsharePred (n : Size) (g : GshareState) (pc : Nat) : Except Raise Bool :=
  ctRead g.pht (gshareIndex n g pc)

/-- `GSHARE_TRAIN_BODY(G, pc, o)` (R70): the index is formed from `ghr` before any write, and enters HIST_NEXT. -/
def gshareTrain (n : Size) (g : GshareState) (pc : Nat) (o : Bool) : Except Raise GshareState :=
  match ctTrain g.pht (gshareIndex n g pc) o with
  | .error e => .error e
  | .ok pht => .ok { pht := pht, ghr := histNext n (gshareIndex n g pc) o }

/-- PREDICT.GSHARE (R69). -/
def execPredictGshare (pc : Nat) (s : State) : Result :=
  whenRunning s <|
    match s.predictor with
    | .ofGshare g =>
      .next (s.finishPredict pc ((gsharePred s.cfg.size g pc).map fun b => (.ofGshare g, b)))
    | _ => .refused .otherKind

/-- TRAIN.GSHARE (R70). -/
def execTrainGshare (pc : Nat) (outcome : Bool) (s : State) : Result :=
  whenRunning s <|
    match s.predictor with
    | .ofGshare g =>
      .next (s.finishTrain pc ((gshareTrain s.cfg.size g pc outcome).map .ofGshare))
    | _ => .refused .otherKind

end Sys2Proof.Machine
end

