-- ==== Sys2Proof/Machine/Local.lean ====
section
/-! DEFINITION. The local predictor (42_local.md R65, R66). -/

namespace Sys2Proof.Machine

/-- `LOCAL_PRED(L, pc)` (R65). -/
def localPred (l : LocalState) (pc : Nat) : Except Raise Bool :=
  match localIndex l pc with
  | .ok i => ctRead l.pht i
  | .error e => .error e

/-- `LOCAL_TRAIN_BODY(L, pc, o)` (R66): the index is read before any write. -/
def localTrain (n : Size) (l : LocalState) (pc : Nat) (o : Bool) : Except Raise LocalState :=
  match localIndex l pc with
  | .error e => .error e
  | .ok i =>
    match ctTrain l.pht i o with
    | .error e => .error e
    | .ok pht => .ok { pht := pht, hist := tblWrite l.hist (localBucket pc) (histNext n i o) }

/-- PREDICT.LOCAL (R65). -/
def execPredictLocal (pc : Nat) (s : State) : Result :=
  whenRunning s <|
    match s.predictor with
    | .ofLocal l =>
      .next (s.finishPredict pc ((localPred l pc).map fun b => (.ofLocal l, b)))
    | _ => .refused .otherKind

/-- TRAIN.LOCAL (R66). -/
def execTrainLocal (pc : Nat) (outcome : Bool) (s : State) : Result :=
  whenRunning s <|
    match s.predictor with
    | .ofLocal l =>
      .next (s.finishTrain pc ((localTrain s.cfg.size l pc outcome).map .ofLocal))
    | _ => .refused .otherKind

end Sys2Proof.Machine
end

