-- ==== Sys2Proof/Machine/Tournament.lean ====
section
/-! DEFINITION. The tournament predictor (44_tournament.md R73, R77). -/

namespace Sys2Proof.Machine

/-- The prediction of the sub-predictor that `lastUsed` names (R73). -/
def selectedPred (n : Size) (t : TournamentState) (pc : Nat) : Except Raise Bool :=
  match t.lastUsed with
  | .useGlobal => gsharePred n t.G pc
  | .useLocal => localPred t.L pc

/-- The tournament's PREDICT (R73): record the selection of the meta-counter, then ask the selected sub-predictor. -/
def tournamentPredict (n : Size) (t : TournamentState) (pc : Nat) : Except Raise (TournamentState × Bool) :=
  match tblRead t.metaTable (metaIndex n pc) with
  | .error e => .error e
  | .ok c =>
    let t' := { t with lastUsed := sel c }
    (selectedPred n t' pc).map fun b => (t', b)

/-- The movement of the meta-counter that a TRAIN asks for (R74, R76, R77): `pl` and `pg` are the sub-predictions before the TRAIN. -/
def trainDelta (reading : MetaReading) (pl pg o : Bool) (lu : Selector) : MetaDelta :=
  metaDelta (correctness reading pl pg o).1 (correctness reading pl pg o).2 lu

/-- The tournament's TRAIN (R77): both sub-predictions before any write, both sub-predictors trained, then the meta-counter; `lastUsed` is not written. -/
def tournamentTrain (cfg : Cfg) (t : TournamentState) (pc : Nat) (o : Bool) : Except Raise TournamentState := do
  let pl ← localPred t.L pc
  let pg ← gsharePred cfg.size t.G pc
  let l ← localTrain cfg.size t.L pc o
  let g ← gshareTrain cfg.size t.G pc o
  let m ← metaApply t.metaTable (metaIndex cfg.size pc) (trainDelta cfg.metaReading pl pg o t.lastUsed)
  return { L := l, G := g, metaTable := m, lastUsed := t.lastUsed }

/-- PREDICT.TOURNAMENT (R73). -/
def execPredictTournament (pc : Nat) (s : State) : Result :=
  whenRunning s <|
    match s.predictor with
    | .ofTournament t =>
      .next (s.finishPredict pc ((tournamentPredict s.cfg.size t pc).map fun r => (.ofTournament r.1, r.2)))
    | _ => .refused .otherKind

/-- TRAIN.TOURNAMENT (R77). -/
def execTrainTournament (pc : Nat) (outcome : Bool) (s : State) : Result :=
  whenRunning s <|
    match s.predictor with
    | .ofTournament t =>
      .next (s.finishTrain pc ((tournamentTrain s.cfg t pc outcome).map .ofTournament))
    | _ => .refused .otherKind

end Sys2Proof.Machine
end

