-- ==== Sys2Proof/Machine/Dispatch.lean ====
section
/-! DEFINITION. One arm per instruction (40_dispatch.md R49). -/

namespace Sys2Proof.Machine

/-- The meaning of every instruction. -/
def exec (i : Instr) (s : State) : Host.Outcome State Fault Refusal :=
  match i with
  | .idle => Sys2Proof.Machine.execIdle s
  | .predictAlwaysTaken pc => Sys2Proof.Machine.execPredictAlwaysTaken pc s
  | .predictLocal pc => Sys2Proof.Machine.execPredictLocal pc s
  | .predictGshare pc => Sys2Proof.Machine.execPredictGshare pc s
  | .predictTournament pc => Sys2Proof.Machine.execPredictTournament pc s
  | .trainAlwaysTaken pc outcome => Sys2Proof.Machine.execTrainAlwaysTaken pc outcome s
  | .trainLocal pc outcome => Sys2Proof.Machine.execTrainLocal pc outcome s
  | .trainGshare pc outcome => Sys2Proof.Machine.execTrainGshare pc outcome s
  | .trainTournament pc outcome => Sys2Proof.Machine.execTrainTournament pc outcome s
  | .reserved word => Sys2Proof.Machine.execReserved word s

end Sys2Proof.Machine
end

