-- ==== Sys2Proof/Machine/Step.lean ====
section
/-! DEFINITION. One step of the block: it takes the host's next input (40_dispatch.md R49; 70_reset_and_hazards.md R96, R97, R104). -/

namespace Sys2Proof.Machine

/-- One input taken in state `s`, from whose inputs it is already removed. -/
def handle (i : Input) (s : State) : Host.Outcome State Fault Refusal :=
  match i with
  | .command w =>
    match decode s.cfg.pcWidth s.kind w with
    | .ok instr => exec instr s
    | .error (.notACommandWord bad) => .refused (.notACommandWord bad)
  | .reset => .next s.resetInput
  | .construct kind entryCount => s.constructed (newPredictor kind entryCount)
  | .constructCoded kind size => s.constructed (newPredictorCoded kind size)

/-- One step: the next input of the host, atomically (R13, R35). -/
def step (s : State) : Host.Outcome State Fault Refusal := handle s.takeInput.1 s.takeInput.2

/-- `s` with the command word `w` as the next thing the host sends (log 1, log 11). -/
def State.withFetchWord (s : State) (nbits w : Nat) : State :=
  { s with inputs := .command (w % 2 ^ nbits) :: s.inputs }

end Sys2Proof.Machine
end

