-- ==== Sys2Proof/Machine/Assembler.lean ====
section
/-! DEFINITION. The textual form of host inputs (30_encoding.md R48): one line is one construction or one command word.
The reset input has no line of its own; `new` is a construction. What R48 leaves open of the text is log 13. -/

namespace Sys2Proof.Machine

/-- Why a line is not assembled. -/
inductive AsmError where
  /-- The line is none of the four forms. -/
  | malformed
  /-- The pc literal does not fit in PC_WIDTH bits: refused, not truncated. -/
  | literalTooWide (pc : Nat)
  deriving DecidableEq, Repr

/-- One line of a command sequence. -/
inductive AsmLine where
  | new (kind : String) (entries : Nat)
  | predict (pc : Nat)
  | train (pc : Nat) (outcome : Bool)
  | idle
  deriving DecidableEq, Repr

/-- The input a line stands for at a block of PC_WIDTH `pcWidth`. -/
def AsmLine.assemble (pcWidth : Nat) : AsmLine → Except AsmError Input
  | .new kind entries => .ok (.construct kind entries)
  | .predict pc => if pcFits pcWidth pc then .ok (.command (Command.predict pc).encode) else .error (.literalTooWide pc)
  | .train pc o => if pcFits pcWidth pc then .ok (.command (Command.train pc o).encode) else .error (.literalTooWide pc)
  | .idle => .ok (.command Command.idle.encode)

/-- The text of a line before its comment. -/
def withoutComment (cs : List Char) : List Char := cs.takeWhile (· ≠ ';')

/-- The words of a text, a comma being a word of its own.
DESIGN CHOICE (log 13): blanks, tabs and carriage returns separate words, since R48 says nothing of white space. -/
def asmWords : List Char → List Char → List (List Char)
  | [], word => if word.isEmpty then [] else [word.reverse]
  | c :: cs, word =>
    if c = ' ' ∨ c = '\t' ∨ c = '\r' then
      if word.isEmpty then asmWords cs [] else word.reverse :: asmWords cs []
    else if c = ',' then
      if word.isEmpty then [','] :: asmWords cs [] else word.reverse :: [','] :: asmWords cs []
    else asmWords cs (c :: word)

/-- The value of a digit in base `base`. -/
def digitValue (base : Nat) (c : Char) : Option Nat :=
  let n := c.toNat
  let v :=
    if 48 ≤ n ∧ n ≤ 57 then some (n - 48)
    else if 97 ≤ n ∧ n ≤ 102 then some (n - 87)
    else if 65 ≤ n ∧ n ≤ 70 then some (n - 55)
    else none
  match v with
  | some d => if d < base then some d else none
  | none => none

/-- The digits of a numeral in base `base`, most significant first, after the value read so far. -/
def digitsValue (base : Nat) : List Char → Nat → Option Nat
  | [], acc => some acc
  | c :: cs, acc =>
    match digitValue base c with
    | some d => digitsValue base cs (acc * base + d)
    | none => none

/-- An unsigned decimal literal. -/
def decimalLiteral (cs : List Char) : Option Nat :=
  if cs.isEmpty then none else digitsValue 10 cs 0

/-- An unsigned integer literal, decimal or `0x` hexadecimal. -/
def integerLiteral : List Char → Option Nat
  | '0' :: 'x' :: cs => if cs.isEmpty then none else digitsValue 16 cs 0
  | cs => decimalLiteral cs

/-- The outcome operand: T = taken, N = not-taken. -/
def outcomeOperand : List Char → Option Bool
  | ['T'] => some true
  | ['N'] => some false
  | _ => none

/-- A mnemonic without regard to case. -/
def mnemonicIs (cs : List Char) (name : String) : Bool :=
  decide (cs.map Char.toLower = name.toList)

/-- The line that a list of words is.
DESIGN CHOICE (log 13): a line of no words, empty or only a comment, is accepted and stands for no input. -/
def parseWords : List (List Char) → Except AsmError (Option AsmLine)
  | [] => .ok none
  | [m] => if mnemonicIs m "idle" then .ok (some .idle) else .error .malformed
  | [m, a] =>
    if mnemonicIs m "predict" then
      match integerLiteral a with
      | some pc => .ok (some (.predict pc))
      | none => .error .malformed
    else .error .malformed
  | [m, a, [','], b] =>
    if mnemonicIs m "train" then
      match integerLiteral a, outcomeOperand b with
      | some pc, some o => .ok (some (.train pc o))
      | _, _ => .error .malformed
    else if mnemonicIs m "new" then
      match decimalLiteral b with
      | some n => .ok (some (.new (String.ofList a) n))
      | none => .error .malformed
    else .error .malformed
  | _ => .error .malformed

/-- The line a text is, or none for a blank or comment line. -/
def parseLine (cs : List Char) : Except AsmError (Option AsmLine) :=
  parseWords (asmWords (withoutComment cs) [])

/-- The inputs that lines of text stand for, in their order, at a block of PC_WIDTH `pcWidth`. -/
def assemble (pcWidth : Nat) : List (List Char) → Except AsmError (List Input)
  | [] => .ok []
  | cs :: rest => do
    let line ← parseLine cs
    let tail ← assemble pcWidth rest
    match line with
    | none => return tail
    | some l => do
      let i ← l.assemble pcWidth
      return i :: tail

end Sys2Proof.Machine
end

