-- ==== Sys2Proof/Safety.lean ====
section
/-! DEFINITION. The terms of claims about the block: its invariant (10_state.md R14 to R27), launch states (70_reset_and_hazards.md R106), runs, their observation and their successful end (R105), and traces (R102). -/

namespace Sys2Proof.Machine

/-- A counter table of the configured length (R16). -/
def tableOk (n : Size) (t : CounterTable) : Bool := decide (t.length = n.entries)

/-- A local predictor state of the configured shape (R17, R18). -/
def LocalState.ok (n : Size) (l : LocalState) : Bool :=
  tableOk n l.pht && decide (l.hist.length = bucketCount) && l.hist.all (fun h => decide (h < n.entries))

/-- A gshare predictor state of the configured shape (R17, R19). -/
def GshareState.ok (n : Size) (g : GshareState) : Bool :=
  tableOk n g.pht && decide (g.ghr < n.entries)

/-- A tournament predictor state of the configured shape (R20). -/
def TournamentState.ok (n : Size) (t : TournamentState) : Bool :=
  t.L.ok n && t.G.ok n && tableOk n t.metaTable

/-- A predictor state of the configured shape (R14). -/
def Predictor.ok (n : Size) : Predictor → Bool
  | .alwaysTaken => true
  | .ofLocal l => l.ok n
  | .ofGshare g => g.ok n
  | .ofTournament t => t.ok n

/-- The monitored pc has PC_WIDTH bits (R26). -/
def pairPcOk (pcWidth : Nat) : Option Nat → Bool
  | none => true
  | some p => pcFits pcWidth p

/-- The fault codes that the register of a constructed block can hold (R81; 93_implementation_defined.md row 11). -/
def faultOk (c : FaultCode) : Bool := c == 0 || c == 3 || c == 4 || c == 5

/-- The invariant of a constructed block: an admitted PC_WIDTH (R8), every table of length N and every history register in [0, N-1] (R16, R17), the monitored pc of PC_WIDTH bits (R26), and a fault code that a rule writes (R81). -/
def State.inv (s : State) : Bool :=
  decide (Config.leastPcWidth ≤ s.cfg.pcWidth) && s.predictor.ok s.cfg.size
    && pairPcOk s.cfg.pcWidth s.pairPc && faultOk s.fault

/-- `NoFault(s)` (R106). -/
def State.noFaultYet (s : State) : Bool := s.fault == noFault

/-- `Fresh(KIND, N)`: the state holds R25's values for its own configuration and kind, with LASTUSED_RESET either selector (R106). -/
def State.isFresh (s : State) : Prop :=
  ∃ draw : Selector, s.predictor = freshPredictor s.kind s.cfg.size draw ∧ s.pairPc = none ∧ s.fault = noFault

/-- Between a PREDICT and its TRAIN a tournament's `lastUsed` is the selection of the meta-counter of the monitored pc (R78 a). -/
def State.selectionRecorded (s : State) : Bool :=
  match s.predictor, s.pairPc with
  | .ofTournament t, some p =>
    match t.metaTable[metaIndex s.cfg.size p]? with
    | some c => decide (t.lastUsed = sel c)
    | none => false
  | _, _ => true

/-- The two states agree in all that can be observed later under STRICT_PAIRING: they may differ in the draw counter, and in `lastUsed` while no PREDICT is monitored (R25). -/
def Predictor.agree (paired : Bool) : Predictor → Predictor → Prop
  | .ofTournament t, .ofTournament u =>
    t.L = u.L ∧ t.G = u.G ∧ t.metaTable = u.metaTable ∧ (paired = true → t.lastUsed = u.lastUsed)
  | p, q => p = q

/-- `Predictor.agree` for whole states. -/
def State.agree (s u : State) : Prop :=
  s.cfg = u.cfg ∧ s.pairPc = u.pairPc ∧ s.fault = u.fault ∧ s.answer = u.answer ∧ s.inputs = u.inputs
    ∧ Predictor.agree s.pairPc.isSome s.predictor u.predictor

/-- The answers of `k` steps and the state after them, or none where the machine stops before (R105). -/
def observe : Nat → State → Option (List (Option Answer) × State)
  | 0, s => some ([], s)
  | k + 1, s =>
    match step s with
    | .next t =>
      match observe k t with
      | some (as, u) => some (t.answer :: as, u)
      | none => none
    | _ => none

/-- The answers to the commands among inputs, given what the steps that took them left as answers: the responses of R105's observation.
Resets and constructions answer nothing. -/
def commandAnswers : List Input → List (Option Answer) → List Answer
  | .command _ :: is, some a :: as => a :: commandAnswers is as
  | _ :: is, _ :: as => commandAnswers is as
  | _, _ => []

/-- A run of all the pending inputs ends successfully: every input is taken, the last command among them returned `Ok`, and no fault is held at the end (R105).
DESIGN CHOICE (log 15): resets and constructions may stand among the commands and are none, so a reset after a command that faulted makes no successful end; and a run without any command ends successfully when no fault is held. -/
def State.endsSuccessfully (s : State) : Prop :=
  ∃ as u, observe s.inputs.length s = some (as, u) ∧ u.fault = noFault
    ∧ ∀ a, (commandAnswers s.inputs as).getLast? = some a → ∃ r, a = .ok r

/-- The inputs a driver sends for a trace of branches and outcomes (R102). -/
def traceInputs : List (Nat × Bool) → List Input
  | [] => []
  | (p, o) :: rest => .command (Command.predict p).encode :: .command (Command.train p o).encode :: traceInputs rest

/-- The predictions among answers, the block's answer to a trace (R102). -/
def predictions : List (Option Answer) → List Bool
  | [] => []
  | some (.ok (.pred b)) :: rest => b :: predictions rest
  | _ :: rest => predictions rest

/-- What the monitor holds after commands, by R26's words: `some p` exactly when the most recent non-IDLE command was PREDICT p. -/
def monitored : Option Nat → List Command → Option Nat
  | m, [] => m
  | m, .idle :: rest => monitored m rest
  | _, .predict p :: rest => monitored (some p) rest
  | _, .train _ _ :: rest => monitored none rest
  | _, .reserved _ :: rest => monitored none rest

end Sys2Proof.Machine
end

