-- ==== Sys2Proof/Certificates/Slice0/Obligations.lean ====
section
/-! DEFINITION. The statements for the provers. Each docstring names the rule of spec/ it formalises. -/

open Sys2Proof Sys2Proof.Machine

namespace Sys2Proof.Claims

/-- A counter after one training step, by R57 and R58: `min(c+1, 3)` or `max(c-1, 0)`. -/
def moved (c : Counter) (up : Bool) : Counter :=
  BitVec.ofNat 2 (if up then min (c.toNat + 1) 3 else c.toNat - 1)

/-- The bit of a counter, by R15: `c >= 2`. -/
def bias (c : Counter) : Bool := decide (2 ≤ c.toNat)

/-- A meta-counter after a TRAIN, by the four cells of R74's table. -/
def metaMoved (c : Counter) (lr gr : Bool) (lu : Selector) : Counter :=
  if lr ∧ gr then moved c (lu = .useGlobal)
  else if lr then moved c false
  else if gr then moved c true
  else c

/-- A TRAIN of `pc` passes the pairing check, by R52. -/
def paired (s : State) (pc : Nat) : Prop := s.cfg.strictPairing = true → s.pairPc = some pc

/-- The predictor without its selector record. -/
def withoutSelector : Predictor → Predictor
  | .ofTournament t => .ofTournament { t with lastUsed := .useLocal }
  | p => p

end Sys2Proof.Claims

open Sys2Proof.Claims

/-! Encoding. -/

/-- R38, R39, R41: for every well-formed instruction, with every operand at every value, decoding its word gives it back. -/
def Obligations.DecodeOfEncodeIsTheInstruction : Prop :=
  ∀ (pw : Nat) (k : Kind) (i : Instr), i.wellFormed pw k = true → decode pw k (encode i) = .ok i

/-- R38, R40, R41, R45: what a word decodes to is well-formed, and encoding it gives the word with only its ignored fields cleared. -/
def Obligations.EncodeOfDecodeIsTheCanonicalWord : Prop :=
  ∀ (pw : Nat) (k : Kind) (w : Nat) (i : Instr), decode pw k w = .ok i →
    i.wellFormed pw k = true ∧ encode i = canonicalWord w

/-- R38, R39, R46: every word of PC_WIDTH + 3 bits decodes by its op field, its pc and outcome being the fields above it, and the KIND chooses the row.
That no longer number decodes is the model's choice (log 7), no rule of the spec. -/
def Obligations.EveryWordDecodesByItsOpField : Prop :=
  ∀ (pw : Nat) (k : Kind) (w : Nat),
    (w < 2 ^ (pw + 3) →
      (w % 4 = 0 → decode pw k w = .ok .idle) ∧
      (w % 4 = 1 → decode pw k w = .ok ((Command.predict (w / 8)).row k)) ∧
      (w % 4 = 2 → decode pw k w = .ok ((Command.train (w / 8) (w.testBit 2)).row k)) ∧
      (w % 4 = 3 → decode pw k w = .ok (.reserved w))) ∧
    (2 ^ (pw + 3) ≤ w → decode pw k w = .error (.notACommandWord w))

/-- R47: one command for a word, whatever the KIND. -/
def Obligations.DecodingIsTheSameForEveryKind : Prop :=
  ∀ (pw : Nat) (k k' : Kind) (w : Nat) (i : Instr), decode pw k w = .ok i →
    decode pw k' w = .ok (i.command.row k') ∧ i = i.command.row k

/-- 30_encoding.md R48 and 95_test_vectors.md V15: words written out from the encoding, at PC_WIDTH = 64. -/
def Obligations.WrittenOutWordsDecode : Prop :=
  decode 64 .localKind 0x0 = .ok .idle ∧
  decode 64 .localKind 0x81 = .ok (.predictLocal 0x10) ∧
  decode 64 .gshare 0x85 = .ok (.predictGshare 0x10) ∧
  decode 64 .tournament 0x86 = .ok (.trainTournament 0x10 true) ∧
  decode 64 .gshare 0x82 = .ok (.trainGshare 0x10 false) ∧
  decode 64 .alwaysTaken 0x7fffffffffffffffe = .ok (.trainAlwaysTaken 0xFFFFFFFFFFFFFFFF true) ∧
  decode 64 .localKind 0x87 = .ok (.reserved 0x87)

/-- R24, R43, R44 (and R5): the tables of the KIND codes and strings, of the SIZE codes with their N, W and MASK, and of the codes of `lastUsed`; SIZE code 3 and every other entry count are refused. -/
def Obligations.ConfigurationCodesNameTheirConfigurations : Prop :=
  (Kind.ofCode 0 = .alwaysTaken ∧ Kind.ofCode 1 = .localKind ∧ Kind.ofCode 2 = .gshare ∧ Kind.ofCode 3 = .tournament) ∧
  (Kind.code .alwaysTaken = 0 ∧ Kind.code .localKind = 1 ∧ Kind.code .gshare = 2 ∧ Kind.code .tournament = 3) ∧
  (Kind.ofString "always_taken" = some .alwaysTaken ∧ Kind.ofString "local" = some .localKind ∧
    Kind.ofString "gshare" = some .gshare ∧ Kind.ofString "tournament" = some .tournament) ∧
  (Size.ofCode 0 = some .n128 ∧ Size.ofCode 1 = some .n1024 ∧ Size.ofCode 2 = some .n4096 ∧ Size.ofCode 3 = none) ∧
  (Size.code .n128 = 0 ∧ Size.code .n1024 = 1 ∧ Size.code .n4096 = 2) ∧
  (Size.entries .n128 = 128 ∧ Size.width .n128 = 7 ∧ Size.mask .n128 = 0x7F) ∧
  (Size.entries .n1024 = 1024 ∧ Size.width .n1024 = 10 ∧ Size.mask .n1024 = 0x3FF) ∧
  (Size.entries .n4096 = 4096 ∧ Size.width .n4096 = 12 ∧ Size.mask .n4096 = 0xFFF) ∧
  (∀ n : Size, Size.ofEntryCount n.entries = some n) ∧
  (∀ e : Int, Size.ofEntryCount e ≠ none ↔ e = 128 ∨ e = 1024 ∨ e = 4096) ∧
  (Selector.code .useLocal = 0 ∧ Selector.code .useGlobal = 1)

/-- R48: an assembled command line decodes to its command, and a pc literal that does not fit is refused. -/
def Obligations.AssembledLinesDecodeToTheirCommands : Prop :=
  ∀ (pw : Nat) (k : Kind) (pc : Nat) (o : Bool),
    (pc < 2 ^ pw →
      (∃ w, (AsmLine.predict pc).assemble pw = .ok (.command w) ∧ decode pw k w = .ok ((Command.predict pc).row k)) ∧
      (∃ w, (AsmLine.train pc o).assemble pw = .ok (.command w) ∧ decode pw k w = .ok ((Command.train pc o).row k))) ∧
    (2 ^ pw ≤ pc →
      (AsmLine.predict pc).assemble pw = .error (.literalTooWide pc) ∧
      (AsmLine.train pc o).assemble pw = .error (.literalTooWide pc)) ∧
    (∃ w, AsmLine.idle.assemble pw = .ok (.command w) ∧ decode pw k w = .ok .idle)

/-! Counter tables and histories. -/

/-- R56, R57, R58, R59, R62: within a table, each operation gives its value at its entry and leaves every other entry and the length alone. -/
def Obligations.CounterOperationsTouchOneEntry : Prop :=
  ∀ (t : CounterTable) (i : Nat) (c : Counter), t[i]? = some c →
    ctRead t i = .ok (bias c) ∧
    (∃ u, ctInc t i = .ok u ∧ u.length = t.length ∧ u[i]? = some (moved c true) ∧ ∀ j, j ≠ i → u[j]? = t[j]?) ∧
    (∃ u, ctDec t i = .ok u ∧ u.length = t.length ∧ u[i]? = some (moved c false) ∧ ∀ j, j ≠ i → u[j]? = t[j]?) ∧
    ctTrain t i true = ctInc t i ∧ ctTrain t i false = ctDec t i

/-- R60: an index outside the table raises IndexOutOfRange with the index, in every operation. -/
def Obligations.IndexCheckRaisesOutsideTheTable : Prop :=
  ∀ (t : CounterTable) (i : Nat) (o : Bool), t.length ≤ i →
    ctRead t i = .error (.indexOutOfRange i) ∧ ctInc t i = .error (.indexOutOfRange i) ∧
    ctDec t i = .error (.indexOutOfRange i) ∧ ctTrain t i o = .error (.indexOutOfRange i)

/-- R61: an increment never decreases a counter, a decrement never increases one, neither leaves [0,3], and the read is monotone; two trainings with one outcome fix the read; one opposite outcome flips it from the weak values 1 and 2 only. -/
def Obligations.CountersHaveHysteresis : Prop :=
  (∀ (t : CounterTable) (i : Nat) (c : Counter), t[i]? = some c →
    ∃ u v cu cv, ctInc t i = .ok u ∧ ctDec t i = .ok v ∧ u[i]? = some cu ∧ v[i]? = some cv ∧
      c.toNat ≤ cu.toNat ∧ cu.toNat ≤ 3 ∧ cv.toNat ≤ c.toNat) ∧
  (∀ (t : CounterTable) (i j : Nat) (c d : Counter), t[i]? = some c → t[j]? = some d → c.toNat ≤ d.toNat →
    ctRead t i = .ok true → ctRead t j = .ok true) ∧
  (∀ (t : CounterTable) (i : Nat) (c : Counter) (o : Bool), t[i]? = some c →
    ∃ u v, ctTrain t i o = .ok u ∧ ctTrain u i o = .ok v ∧ ctRead v i = .ok o ∧
      ctRead u i = .ok (if bias c = o then o else if c = 1 ∨ c = 2 then o else !o))

/-- R64: HIST_NEXT shifts the index left by one, puts the outcome in bit 0 and drops what leaves the W bits. -/
def Obligations.HistoryRecurrenceShiftsTheIndex : Prop :=
  ∀ (n : Size) (i : Nat) (o : Bool),
    (histNext n i o).testBit 0 = o ∧
    (∀ j, (histNext n i o).testBit (j + 1) = (decide (j + 1 < n.width) && i.testBit j)) ∧
    histNext n i o < n.entries

/-- R42, R81: the response bits, the runtime fault codes and the construction fault codes. -/
def Obligations.ResponsesAndFaultsHaveTheirCodes : Prop :=
  Response.none.bits = 0b00 ∧ (Response.pred false).bits = 0b10 ∧ (Response.pred true).bits = 0b11 ∧ noFault = 0 ∧
  (∀ i, (Raise.indexOutOfRange i).code = 3) ∧ (∀ w, (Raise.reservedCommand w).code = 4) ∧
  (∀ pc p, (Raise.protocolViolation pc p).code = 5) ∧
  (∀ k, (Fault.unsupportedKind k).code = 1) ∧ (∀ n, (Fault.invalidConfiguration n).code = 2) ∧
  (∀ c, (Fault.invalidSizeCode c).code = 2)

/-! Results. Each is the completion of its instruction and, as an equation of whole states, its frame. -/

/-- R51: op 00 is IDLE, whatever the fields it ignores; it writes no state and answers none; a faulted block stays faulted. -/
def Obligations.IdleWritesNothing : Prop :=
  ∀ s : State,
    (∀ w, w < 2 ^ (s.cfg.pcWidth + 3) → w % 4 = 0 → decode s.cfg.pcWidth s.kind w = .ok .idle) ∧
    (s.fault = 0 → exec .idle s = .next { s with answer := some (.ok .none) }) ∧
    (s.fault ≠ 0 → exec .idle s = .next { s with answer := some (.fault s.fault none) })

/-- R54: op 11 is the reserved command, whatever its other fields; it always takes RESERVED_COMMAND (code 4) with its word, and writes nothing else. -/
def Obligations.ReservedTakesItsFault : Prop :=
  ∀ (s : State) (w : Nat),
    (w < 2 ^ (s.cfg.pcWidth + 3) → w % 4 = 3 → decode s.cfg.pcWidth s.kind w = .ok (.reserved w)) ∧
    (s.fault = 0 →
      exec (.reserved w) s = .next { s with fault := 4, answer := some (.fault 4 (some (.reservedCommand w))) })

/-- R79: op 01 under KIND = ALWAYS_TAKEN; always taken, for every pc, and only the pairing monitor is written. -/
def Obligations.PredictAlwaysTakenAnswersTaken : Prop :=
  ∀ (s : State) (pc : Nat), s.fault = 0 → s.predictor = .alwaysTaken →
    (∀ w, w < 2 ^ (s.cfg.pcWidth + 3) → w % 4 = 1 → decode s.cfg.pcWidth s.kind w = .ok (.predictAlwaysTaken (w / 8))) ∧
    exec (.predictAlwaysTaken pc) s = .next { s with pairPc := some pc, answer := some (.ok (.pred true)) }

/-- R80: no-op but for the pairing monitor, whatever the outcome. -/
def Obligations.TrainAlwaysTakenChangesNoPrediction : Prop :=
  ∀ (s : State) (pc : Nat) (o : Bool), s.fault = 0 → s.predictor = .alwaysTaken → paired s pc →
    exec (.trainAlwaysTaken pc o) s = .next { s with pairPc := none, answer := some (.ok .none) }

/-- R63, R65: the prediction is the counter at the bucket's history value; only the pairing monitor is written. -/
def Obligations.PredictLocalReadsTheHistoryIndexedCounter : Prop :=
  ∀ (s : State) (l : LocalState) (pc : Nat), s.inv = true → s.fault = 0 → s.predictor = .ofLocal l →
    ∃ h c, l.hist[pc % 128]? = some h ∧ l.pht[h]? = some c ∧
      exec (.predictLocal pc) s = .next { s with pairPc := some pc, answer := some (.ok (.pred (bias c))) }

/-- R63, R64, R66: the counter at the bucket's history value moves, and the history takes the outcome; nothing else is written. -/
def Obligations.TrainLocalMovesCounterAndHistory : Prop :=
  ∀ (s : State) (l : LocalState) (pc : Nat) (o : Bool),
    s.inv = true → s.fault = 0 → s.predictor = .ofLocal l → paired s pc →
    ∃ h c, l.hist[pc % 128]? = some h ∧ l.pht[h]? = some c ∧
      exec (.trainLocal pc o) s = .next { s with
        predictor := .ofLocal {
          pht := l.pht.set h (moved c o)
          hist := l.hist.set (pc % 128) ((2 * h + o.toNat) % s.cfg.size.entries) }
        pairPc := none
        answer := some (.ok .none) }

/-- R68, R69: the prediction is the counter at `pc[W-1:0] XOR ghr`; only the pairing monitor is written. -/
def Obligations.PredictGshareReadsTheXorIndexedCounter : Prop :=
  ∀ (s : State) (g : GshareState) (pc : Nat), s.inv = true → s.fault = 0 → s.predictor = .ofGshare g →
    ∃ c, g.pht[(pc % s.cfg.size.entries) ^^^ g.ghr]? = some c ∧
      exec (.predictGshare pc) s = .next { s with pairPc := some pc, answer := some (.ok (.pred (bias c))) }

/-- R64, R68, R70: the counter at the XOR index moves, and the next history comes from that index, not from the old history. -/
def Obligations.TrainGshareMovesCounterAndHistory : Prop :=
  ∀ (s : State) (g : GshareState) (pc : Nat) (o : Bool),
    s.inv = true → s.fault = 0 → s.predictor = .ofGshare g → paired s pc →
    ∃ c, g.pht[(pc % s.cfg.size.entries) ^^^ g.ghr]? = some c ∧
      exec (.trainGshare pc o) s = .next { s with
        predictor := .ofGshare {
          pht := g.pht.set ((pc % s.cfg.size.entries) ^^^ g.ghr) (moved c o)
          ghr := (2 * ((pc % s.cfg.size.entries) ^^^ g.ghr) + o.toNat) % s.cfg.size.entries }
        pairPc := none
        answer := some (.ok .none) }

/-- R72, R73: the meta-counter's selection is recorded and the selected sub-predictor's prediction returned; only `lastUsed` and the monitor are written. -/
def Obligations.PredictTournamentRecordsAndDelegates : Prop :=
  ∀ (s : State) (t : TournamentState) (pc : Nat), s.inv = true → s.fault = 0 → s.predictor = .ofTournament t →
    ∃ cm h cl cg, t.metaTable[pc % s.cfg.size.entries]? = some cm ∧
      t.L.hist[pc % 128]? = some h ∧ t.L.pht[h]? = some cl ∧
      t.G.pht[(pc % s.cfg.size.entries) ^^^ t.G.ghr]? = some cg ∧
      exec (.predictTournament pc) s = .next { s with
        predictor := .ofTournament { t with lastUsed := if bias cm then .useGlobal else .useLocal }
        pairPc := some pc
        answer := some (.ok (.pred (if bias cm then bias cg else bias cl))) }

/-- R74 to R77: both sub-predictors train on the true outcome, and the meta-counter moves by the rule table on the predictions made before the training, under either reading of the not-taken case; `lastUsed` is not written. -/
def Obligations.TrainTournamentTrainsBothAndMovesMeta : Prop :=
  ∀ (s : State) (t : TournamentState) (pc : Nat) (o : Bool),
    s.inv = true → s.fault = 0 → s.predictor = .ofTournament t → paired s pc →
    ∃ cm h cl cg, t.metaTable[pc % s.cfg.size.entries]? = some cm ∧
      t.L.hist[pc % 128]? = some h ∧ t.L.pht[h]? = some cl ∧
      t.G.pht[(pc % s.cfg.size.entries) ^^^ t.G.ghr]? = some cg ∧
      exec (.trainTournament pc o) s = .next { s with
        predictor := .ofTournament {
          L := {
            pht := t.L.pht.set h (moved cl o)
            hist := t.L.hist.set (pc % 128) ((2 * h + o.toNat) % s.cfg.size.entries) }
          G := {
            pht := t.G.pht.set ((pc % s.cfg.size.entries) ^^^ t.G.ghr) (moved cg o)
            ghr := (2 * ((pc % s.cfg.size.entries) ^^^ t.G.ghr) + o.toNat) % s.cfg.size.entries }
          metaTable := t.metaTable.set (pc % s.cfg.size.entries)
            (match s.cfg.metaReading with
              | .correctness => metaMoved cm (bias cl == o) (bias cg == o) t.lastUsed
              | .predictionOnly => metaMoved cm (bias cl) (bias cg) t.lastUsed)
          lastUsed := t.lastUsed }
        pairPc := none
        answer := some (.ok .none) }

/-- R74, R75, R76: the rule table cell by cell and its equivalent form (the last-used sub-predictor if it was right, else the other if that was right, else nothing), +1 and -1 as increment and decrement of entry `mi`, and the two readings of the not-taken case. -/
def Obligations.MetaMovementFollowsTheRuleTable : Prop :=
  (∀ lu, metaDelta true true lu = if lu = .useGlobal then .plusOne else .minusOne) ∧
  (∀ lu, metaDelta true false lu = .minusOne ∧ metaDelta false true lu = .plusOne ∧ metaDelta false false lu = .zero) ∧
  (∀ lr gr lu, metaDelta lr gr lu =
    match lu with
    | .useGlobal => if gr then .plusOne else if lr then .minusOne else .zero
    | .useLocal => if lr then .minusOne else if gr then .plusOne else .zero) ∧
  (∀ t mi, metaApply t mi .plusOne = ctInc t mi ∧ metaApply t mi .minusOne = ctDec t mi ∧ metaApply t mi .zero = .ok t) ∧
  (∀ pl pg o lu, trainDelta .correctness pl pg o lu = metaDelta (pl == o) (pg == o) lu) ∧
  (∀ pl pg o lu, trainDelta .predictionOnly pl pg o lu = metaDelta pl pg lu) ∧
  (∀ pl pg lu, trainDelta .correctness pl pg true lu = trainDelta .predictionOnly pl pg true lu)

/-! Frames over families. -/

/-- R34: a PREDICT of any kind that completes writes no predictor state but a tournament's selector, and a repeated PREDICT of the same pc gives the same answer and leaves the same state. -/
def Obligations.PredictIsIdempotentAndWritesOnlyTheSelector : Prop :=
  ∀ (i : Instr) (pc : Nat) (s t : State), i.command = .predict pc → s.fault = 0 → exec i s = .next t → t.fault = 0 →
    t.cfg = s.cfg ∧ t.draws = s.draws ∧ t.inputs = s.inputs ∧ t.pairPc = some pc ∧
    withoutSelector t.predictor = withoutSelector s.predictor ∧
    exec i t = .next t

/-- R34, R62, R66, R70, R77: after a TRAIN, every entry outside those at the indices its rule forms reads as before, and no configuration or input changes. -/
def Obligations.TrainWritesOnlyTheEntriesItsRuleNames : Prop :=
  ∀ (i : Instr) (pc : Nat) (o : Bool) (s t : State), i.command = .train pc o → exec i s = .next t →
    t.cfg = s.cfg ∧ t.kind = s.kind ∧ t.draws = s.draws ∧ t.inputs = s.inputs ∧
    (∀ l l', s.predictor = .ofLocal l → t.predictor = .ofLocal l' →
      (∀ j, localIndex l pc ≠ .ok j → l'.pht[j]? = l.pht[j]?) ∧
      (∀ b, b ≠ localBucket pc → l'.hist[b]? = l.hist[b]?)) ∧
    (∀ g g', s.predictor = .ofGshare g → t.predictor = .ofGshare g' →
      ∀ j, j ≠ gshareIndex s.cfg.size g pc → g'.pht[j]? = g.pht[j]?) ∧
    (∀ u u', s.predictor = .ofTournament u → t.predictor = .ofTournament u' →
      (∀ j, localIndex u.L pc ≠ .ok j → u'.L.pht[j]? = u.L.pht[j]?) ∧
      (∀ b, b ≠ localBucket pc → u'.L.hist[b]? = u.L.hist[b]?) ∧
      (∀ j, j ≠ gshareIndex s.cfg.size u.G pc → u'.G.pht[j]? = u.G.pht[j]?) ∧
      (∀ j, j ≠ metaIndex s.cfg.size pc → u'.metaTable[j]? = u.metaTable[j]?) ∧
      u'.lastUsed = u.lastUsed)

/-! Pairing and faults. -/

/-- R52, R85: under STRICT_PAIRING an unpaired TRAIN of any kind takes PROTOCOL_VIOLATION (code 5) with its pc and `pairPc` before any state is written, whatever its table accesses would raise. -/
def Obligations.UnpairedTrainTakesProtocolViolation : Prop :=
  ∀ (s : State) (pc : Nat) (o : Bool), s.fault = 0 → s.cfg.strictPairing = true → s.pairPc ≠ some pc →
    exec ((Command.train pc o).row s.kind) s =
      .next { s with fault := 5, answer := some (.fault 5 (some (.protocolViolation pc s.pairPc))) }

/-- R52, D22: with STRICT_PAIRING false a TRAIN executes on the state as it stands, so what the monitor holds does not matter. -/
def Obligations.UncheckedTrainDisregardsTheMonitor : Prop :=
  ∀ (s : State) (pc : Nat) (o : Bool) (p : Option Nat), s.inv = true → s.fault = 0 → s.cfg.strictPairing = false →
    ∃ t, exec ((Command.train pc o).row s.kind) s = .next t ∧ t.fault = 0 ∧ t.pairPc = none ∧
      exec ((Command.train pc o).row s.kind) { s with pairPc := p } = .next t

/-- R86: a command that raises leaves every register as before it but the fault register, which takes the code, and the answer is that code with what the raise recorded. -/
def Obligations.FaultsArePrecise : Prop :=
  ∀ (i : Instr) (s t : State), s.fault = 0 → exec i s = .next t → t.fault ≠ 0 →
    ∃ r : Raise, t = { s with fault := t.fault, answer := some (.fault t.fault (some r)) } ∧
      match r with
      | .indexOutOfRange _ => t.fault = 3
      | .reservedCommand w => t.fault = 4 ∧ i = .reserved w
      | .protocolViolation pc p => t.fault = 5 ∧ p = s.pairPc ∧ p ≠ some pc ∧ ∃ o, i.command = .train pc o

/-- R50, R87: a faulted block answers every command word with the code it holds and changes nothing, only a reset or a construction clears the code, and while only command words come the run has not ended successfully. -/
def Obligations.FaultedBlockIsStuckUntilReset : Prop :=
  (∀ (s : State) (w : Nat) (rest : List Input), s.fault ≠ 0 → s.inputs = .command w :: rest → w < 2 ^ (s.cfg.pcWidth + 3) →
    step s = .next { s with inputs := rest, answer := some (.fault s.fault none) }) ∧
  (∀ s t : State, s.fault ≠ 0 → step s = .next t → t.fault ≠ s.fault →
    ∃ i rest, s.inputs = i :: rest ∧ ∀ w, i ≠ .command w) ∧
  (∀ s : State, s.fault ≠ 0 → (∀ i ∈ s.inputs, ∃ w, i = .command w) → ¬ s.endsSuccessfully)

/-- R31: under the invariant no step takes INDEX_OUT_OF_RANGE. -/
def Obligations.IndexOutOfRangeIsUnreachable : Prop :=
  ∀ s t : State, s.inv = true → step s = .next t → s.fault ≠ 3 → t.fault ≠ 3

/-- R26, R53: after a run of commands that has not faulted, the monitor holds `some p` exactly when the most recent non-IDLE command was PREDICT p. -/
def Obligations.PairMonitorHoldsTheLastPredict : Prop :=
  ∀ (s u : State) (cs : List Command) (as : List (Option Answer)),
    (∀ c ∈ cs, (c.row s.kind).wellFormed s.cfg.pcWidth s.kind = true) →
    s.inputs = cs.map (fun c => .command c.encode) →
    observe cs.length s = some (as, u) → u.fault = 0 →
    u.pairPc = monitored s.pairPc cs

/-! Steps. -/

/-- R49 on this model's inputs: a step with a command word pending takes it and runs the instruction it decodes to. -/
def Obligations.StepRunsTheDecodedInstruction : Prop :=
  ∀ (s : State) (w : Nat) (rest : List Input) (i : Instr),
    s.inputs = .command w :: rest → decode s.cfg.pcWidth s.kind w = .ok i →
    step s = exec i { s with inputs := rest }

/-- The model's choice (log 9): with nothing pending a step runs IDLE. -/
def Obligations.StepWithNothingPendingRunsIdle : Prop :=
  ∀ s : State, s.inputs = [] → step s = exec .idle s

/-- R45, R49: on every word of PC_WIDTH + 3 bits a step answers a next state; it never stops. -/
def Obligations.StepCompletesOnEveryCommandWord : Prop :=
  ∀ (s : State) (w : Nat) (rest : List Input),
    s.inputs = .command w :: rest → w < 2 ^ (s.cfg.pcWidth + 3) →
    ∃ t a, step s = .next t ∧ t.inputs = rest ∧ t.answer = some a

/-- The model's refusals (log 7, log 8): a row of another KIND than the block's, and a number longer than a command word. -/
def Obligations.RefusalsAreOtherKindsAndLongWords : Prop :=
  (∀ (s : State) (i : Instr) (k : Kind), s.fault = 0 → i.kind = some k → k ≠ s.kind → exec i s = .refused .otherKind) ∧
  (∀ (s : State) (w : Nat) (rest : List Input), s.inputs = .command w :: rest → 2 ^ (s.cfg.pcWidth + 3) ≤ w →
    step s = .refused (.notACommandWord w))

/-- R9, R22: a step that is no construction changes neither KIND nor N nor a model parameter. -/
def Obligations.OnlyConstructionChangesTheConfiguration : Prop :=
  ∀ s t : State, step s = .next t →
    (∀ kind n rest, s.inputs ≠ .construct kind n :: rest) → (∀ kind size rest, s.inputs ≠ .constructCoded kind size :: rest) →
    t.cfg = s.cfg ∧ t.kind = s.kind

/-! Construction and reset. -/

/-- R25, R97: the reset input sets every element to its construction value in the block's own configuration, whatever the state before; `lastUsed` is the next draw of LASTUSED_RESET, a free value (log 3). -/
def Obligations.ResetInputSetsConstructionValues : Prop :=
  ∀ (s : State) (rest : List Input), s.inputs = .reset :: rest →
    ∃ t : State, step s = .next t ∧
      t.cfg = s.cfg ∧ t.kind = s.kind ∧ t.pairPc = none ∧ t.fault = 0 ∧ t.inputs = rest ∧ t.draws = s.draws + 1 ∧
      match t.predictor with
      | .alwaysTaken => True
      | .ofLocal l => l.pht = List.replicate s.cfg.size.entries 2 ∧ l.hist = List.replicate 128 0
      | .ofGshare g => g.pht = List.replicate s.cfg.size.entries 2 ∧ g.ghr = 0
      | .ofTournament u =>
        u.L.pht = List.replicate s.cfg.size.entries 2 ∧ u.L.hist = List.replicate 128 0 ∧
        u.G.pht = List.replicate s.cfg.size.entries 2 ∧ u.G.ghr = 0 ∧
        u.metaTable = List.replicate s.cfg.size.entries 2 ∧ u.lastUsed = Config.lastUsedReset s.draws

/-- R82, R83, R84, R96: construction at the string interface checks the kind, then the entry count, and gives a fresh block of that configuration or none. -/
def Obligations.ConstructionGivesAFreshBlockOrNone : Prop :=
  ∀ (s : State) (kind : String) (n : Int) (rest : List Input), s.inputs = .construct kind n :: rest →
    (kind ∉ ["always_taken", "local", "gshare", "tournament"] → step s = .fault (.unsupportedKind kind)) ∧
    (kind ∈ ["always_taken", "local", "gshare", "tournament"] → n ∉ [(128 : Int), 1024, 4096] →
      step s = .fault (.invalidConfiguration n)) ∧
    (∀ k : Kind, Kind.ofString kind = some k → n ∈ [(128 : Int), 1024, 4096] →
      ∃ t, step s = .next t ∧ t.isFresh ∧ t.kind = k ∧ (t.cfg.size.entries : Int) = n ∧ t.inputs = rest)

/-- R43, R44, R82, R83: construction at the encoded interface refuses SIZE = 3 only, and gives a fresh block of the coded configuration.
That the fault of SIZE = 3 records the SIZE code is the model's choice (log 14): the spec leaves that payload any value, and gives the code INVALID_CONFIGURATION and no block. -/
def Obligations.CodedConstructionRefusesTheReservedSizeOnly : Prop :=
  ∀ (s : State) (kc sc : BitVec 2) (rest : List Input), s.inputs = .constructCoded kc sc :: rest →
    (sc = 3 → step s = .fault (.invalidSizeCode 3)) ∧
    (sc ≠ 3 → ∃ t, step s = .next t ∧ t.isFresh ∧ t.kind.code = kc ∧ t.cfg.size.code = sc ∧ t.inputs = rest)

/-- R25's consequence: a fresh block of any kind and size predicts taken at every pc. -/
def Obligations.FreshBlocksPredictTaken : Prop :=
  ∀ (s : State) (pc : Nat), s.isFresh →
    ∃ t, exec ((Command.predict pc).row s.kind) s = .next t ∧ t.answer = some (.ok (.pred true)) ∧ t.fault = 0

/-- R14 to R27: the state after construction or reset, in every admitted configuration and for every draw, meets the invariant; so does `State.reset`. -/
def Obligations.FreshStatesMeetTheInvariant : Prop :=
  (∀ s : State, 12 ≤ s.cfg.pcWidth → s.isFresh → s.inv = true ∧ s.selectionRecorded = true) ∧
  State.reset.isFresh ∧ State.reset.inv = true

/-! Whole-machine rules. -/

/-- R8: bits of the pc above `pc[max(W,7)-1:0]` reach nothing but the monitor. -/
def Obligations.OnlyLowPcBitsReachThePredictor : Prop :=
  ∀ (s : State) (pc pc' : Nat) (o : Bool),
    pc % 2 ^ (max s.cfg.size.width 7) = pc' % 2 ^ (max s.cfg.size.width 7) → s.fault = 0 →
    (∀ t, exec ((Command.predict pc).row s.kind) s = .next t → t.fault = 0 →
      exec ((Command.predict pc').row s.kind) s = .next { t with pairPc := some pc' }) ∧
    (∀ t, exec ((Command.train pc o).row s.kind) { s with pairPc := some pc } = .next t → t.fault = 0 →
      exec ((Command.train pc' o).row s.kind) { s with pairPc := some pc' } = .next t)

/-- R67: after any TRAINs of a local predictor, a bucket's history is the shift register of the outcomes trained at that bucket, the newest in bit 0, cut to W bits. -/
def Obligations.LocalHistoryIsTheOutcomeShiftRegister : Prop :=
  ∀ (n : Size) (l : LocalState) (b : Nat) (trains : List (Nat × Bool)),
    l.ok n = true → b < 128 → l.hist[b]? = some 0 →
    ∃ l' h, trains.foldlM (fun l x => localTrain n l x.1 x.2) l = .ok l' ∧ l'.hist[b]? = some h ∧
      ∀ j, h.testBit j =
        (decide (j < n.width) && (((trains.filter (fun x => x.1 % 128 == b)).map Prod.snd).reverse.getD j false))

/-- R71: a gshare TRAIN puts the outcome in bit 0 of the history and the old `pc XOR ghr` above it. -/
def Obligations.GlobalHistoryMixesPcBits : Prop :=
  ∀ (s : State) (g : GshareState) (pc : Nat) (o : Bool),
    s.inv = true → s.fault = 0 → s.predictor = .ofGshare g → paired s pc →
    ∃ t g', exec (.trainGshare pc o) s = .next t ∧ t.predictor = .ofGshare g' ∧
      g'.ghr.testBit 0 = o ∧
      ∀ j, g'.ghr.testBit (j + 1) = (decide (j + 1 < s.cfg.size.width) && (pc.testBit j ^^ g.ghr.testBit j))

/-- R78 c: on a paired TRAIN under CORRECTNESS the meta-counter moves away from the threshold on its own side when both are right, toward the one that is right, and not when both are wrong. -/
def Obligations.PairedTrainReinforcesTheRightPredictor : Prop :=
  ∀ (s : State) (t : TournamentState) (pc : Nat) (o : Bool),
    s.inv = true → s.fault = 0 → s.predictor = .ofTournament t → s.pairPc = some pc →
    s.selectionRecorded = true → s.cfg.metaReading = .correctness →
    ∃ (u : State) (t' : TournamentState) (cm cm' : Counter) (pl pg : Bool),
      exec (.trainTournament pc o) s = .next u ∧ u.predictor = .ofTournament t' ∧
      localPred t.L pc = .ok pl ∧ gsharePred s.cfg.size t.G pc = .ok pg ∧
      t.metaTable[metaIndex s.cfg.size pc]? = some cm ∧ t'.metaTable[metaIndex s.cfg.size pc]? = some cm' ∧
      (pl = o → pg = o → cm' = moved cm (bias cm)) ∧
      (pl = o → pg ≠ o → cm' = moved cm false) ∧
      (pl ≠ o → pg = o → cm' = moved cm true) ∧
      (pl ≠ o → pg ≠ o → cm' = cm)

/-- R14 to R31: every step keeps the invariant. -/
def Obligations.StepKeepsTheInvariant : Prop :=
  ∀ s t : State, s.inv = true → step s = .next t → t.inv = true

/-- R78 a: every step keeps that a monitored pc's selection is the one recorded. -/
def Obligations.StepKeepsTheSelectionRecorded : Prop :=
  ∀ s t : State, s.selectionRecorded = true → step s = .next t → t.selectionRecorded = true

/-- R102: a trace run from a state that is not faulted meets no fault, and answers one prediction for each branch.
That the empty trace, a run without commands, ends successfully is the model's choice (log 15), no rule of the spec. -/
def Obligations.PairedTracesRunWithoutFault : Prop :=
  ∀ (s : State) (trace : List (Nat × Bool)), s.inv = true → s.fault = 0 →
    (∀ x ∈ trace, x.1 < 2 ^ s.cfg.pcWidth) → s.inputs = traceInputs trace →
    s.endsSuccessfully ∧
    ∃ as u, observe (2 * trace.length) s = some (as, u) ∧ u.inputs = [] ∧ u.inv = true ∧
      (predictions as).length = trace.length

/-- R25: under STRICT_PAIRING the draw LASTUSED_RESET is never observed: two states that differ only in it (and in the draw counter) answer alike for ever. -/
def Obligations.LastUsedDrawIsNeverObserved : Prop :=
  ∀ (k : Nat) (s u s' : State) (as : List (Option Answer)),
    s.agree u → s.cfg.strictPairing = true → observe k s = some (as, s') →
    ∃ u', observe k u = some (as, u') ∧ s'.agree u'

/-- R105: a run of commands, with any number of resets after them, ends successfully exactly when its last command returned `Ok`, and a run that leaves a fault held has not ended successfully.
What counts as a command among other inputs is the model's choice (log 15). -/
def Obligations.RunsEndSuccessfullyByTheirLastCommand : Prop :=
  (∀ (s u : State) (ws : List Nat) (w n : Nat) (as : List (Option Answer)),
    s.inputs = (ws ++ [w]).map Input.command ++ List.replicate n Input.reset →
    observe s.inputs.length s = some (as, u) →
    (s.endsSuccessfully ↔ ∃ r, as[ws.length]? = some (some (.ok r)))) ∧
  (∀ (s u : State) (as : List (Option Answer)), observe s.inputs.length s = some (as, u) → u.fault ≠ 0 →
    ¬ s.endsSuccessfully)
end

