-- ==== Sys2Proof/Laws/CounterTable.lean ====
section
/-! SUPPORT. What a table access can do: an entry and its index in range, or INDEX_OUT_OF_RANGE (R30, R56 to R60, R62); and the read-after-write laws. -/

namespace Sys2Proof.Machine

variable {α : Type} {t : List α} {i : Nat} {v : α}

theorem tblRead_ok_iff : tblRead t i = .ok v ↔ t[i]? = some v := by
  unfold tblRead; split <;> simp_all

theorem tblRead_error_iff {r : Raise} : tblRead t i = .error r ↔ t.length ≤ i ∧ r = .indexOutOfRange i := by
  unfold tblRead
  split
  · next v hv =>
    have : i < t.length := (List.getElem?_eq_some_iff.1 hv).1
    simp; omega
  · next hn => simp [List.getElem?_eq_none_iff.1 hn, eq_comm]

theorem tblRead_of_lt (h : i < t.length) : ∃ v, tblRead t i = .ok v :=
  ⟨t[i], tblRead_ok_iff.2 (List.getElem?_eq_getElem h)⟩

theorem tblWrite_length : (tblWrite t i v).length = t.length := List.length_set ..

theorem tblWrite_read_other {j : Nat} (h : j ≠ i) : (tblWrite t i v)[j]? = t[j]? := by
  simp [tblWrite, Ne.symm h]

theorem tblWrite_read_same (h : i < t.length) : (tblWrite t i v)[i]? = some v := by
  simp [tblWrite, h]

/-- The counter one training step writes (R57, R58, R59). -/
def trained (c : Counter) (o : Bool) : Counter := if o then incremented c else decremented c

theorem ctRead_ok_iff {t : CounterTable} {b : Bool} : ctRead t i = .ok b ↔ ∃ c, t[i]? = some c ∧ taken c = b := by
  unfold ctRead tblRead; split <;> simp_all <;> grind

theorem ctRead_error {t : CounterTable} {r : Raise} (h : ctRead t i = .error r) : t.length ≤ i ∧ r = .indexOutOfRange i := by
  unfold ctRead at h
  split at h
  · simp at h
  · next e he => simp at h; subst h; exact tblRead_error_iff.1 he

theorem ctTrain_ok_iff {t u : CounterTable} {o : Bool} :
    ctTrain t i o = .ok u ↔ ∃ c, t[i]? = some c ∧ u = tblWrite t i (trained c o) := by
  cases o <;> simp only [ctTrain, ctInc, ctDec, trained, tblRead] <;> split <;> simp_all <;> grind

theorem ctTrain_error {t : CounterTable} {o : Bool} {r : Raise} (h : ctTrain t i o = .error r) :
    t.length ≤ i ∧ r = .indexOutOfRange i := by
  have : tblRead t i = .error r := by
    cases o <;> simp only [ctTrain, ctInc, ctDec, if_true, Bool.false_eq_true, if_false] at h <;>
      split at h <;> simp_all
  exact tblRead_error_iff.1 this

theorem metaApply_ok {t u : CounterTable} {d : MetaDelta} (h : metaApply t i d = .ok u) :
    u.length = t.length ∧ ∀ j, j ≠ i → u[j]? = t[j]? := by
  have inv : ∀ o, ctTrain t i o = .ok u → u.length = t.length ∧ ∀ j, j ≠ i → u[j]? = t[j]? := by
    intro o ho
    obtain ⟨c, -, rfl⟩ := ctTrain_ok_iff.1 ho
    exact ⟨tblWrite_length, fun j hj => tblWrite_read_other hj⟩
  cases d
  · exact inv true h
  · exact inv false h
  · simp [metaApply] at h; subst h; exact ⟨rfl, fun _ _ => rfl⟩

theorem metaApply_error {t : CounterTable} {d : MetaDelta} {r : Raise} (h : metaApply t i d = .error r) :
    t.length ≤ i ∧ r = .indexOutOfRange i := by
  cases d
  · exact ctTrain_error (o := true) h
  · exact ctTrain_error (o := false) h
  · simp [metaApply] at h

theorem metaApply_of_lt {t : CounterTable} (d : MetaDelta) (h : i < t.length) : ∃ u, metaApply t i d = .ok u := by
  cases hd : metaApply t i d with
  | ok u => exact ⟨u, rfl⟩
  | error r => exact absurd (metaApply_error hd).1 (by omega)

end Sys2Proof.Machine
end

