-- ==== Sys2Proof/Laws/Decode.lean ====
section
/-! SUPPORT. The fields of a command word as arithmetic (R38), and what a packed word's fields are. -/

namespace Sys2Proof

theorem op_eq (w : Nat) : wordOp w = w % 4 := by simp [wordOp, bits]

theorem outcome_eq (w : Nat) : wordOutcome w = w.testBit 2 := by
  simp only [wordOutcome, bits, Nat.testBit, Nat.shiftRight_eq_div_pow, Nat.one_and_eq_mod_two]
  norm_num

theorem pc_eq (pw : Nat) (w : Nat) : wordPc pw w = (w / 8) % 2 ^ pw := by
  simp only [wordPc, bits, Nat.shiftRight_eq_div_pow]
  rw [show pw + 2 + 1 - 3 = pw from by omega]

theorem wordFits_iff {pw : Nat} {w : Nat} : wordFits pw w = true ↔ w < 2 ^ (pw + 3) := by simp [wordFits]

theorem pcFits_iff {pw : Nat} {pc : Nat} : pcFits pw pc = true ↔ pc < 2 ^ pw := by simp [pcFits]

/-- The bits of a word above bit 2 fit in PC_WIDTH bits just when the word fits in PC_WIDTH + 3 bits. -/
theorem div_fits_iff {pw : Nat} {w : Nat} : w / 8 < 2 ^ pw ↔ w < 2 ^ (pw + 3) := by
  rw [Nat.div_lt_iff_lt_mul (by decide), show 2 ^ (pw + 3) = 2 ^ pw * 8 from by rw [pow_add]; rfl]

/-- Below PC_WIDTH + 3 bits the pc field is all that stands above bit 2. -/
theorem pc_of_fits {pw : Nat} {w : Nat} (h : w < 2 ^ (pw + 3)) : wordPc pw w = w / 8 := by
  rw [pc_eq, Nat.mod_eq_of_lt (div_fits_iff.2 h)]

/-- `word = (pc << 3) | (outcome << 2) | op` as a sum of disjoint fields. -/
theorem packWord_eq {op : Nat} (pc : Nat) (o : Bool) (h : op < 4) : packWord pc o op = 8 * pc + 4 * o.toNat + op := by
  have low : (o.toNat <<< 2) ||| op = 4 * o.toNat + op := by
    rw [← Nat.shiftLeft_add_eq_or_of_lt (by simpa using h), Nat.shiftLeft_eq]; ring
  have ho : o.toNat ≤ 1 := by cases o <;> decide
  rw [packWord, Nat.or_assoc, low, ← Nat.shiftLeft_add_eq_or_of_lt (by omega), Nat.shiftLeft_eq]
  ring

end Sys2Proof
end

