-- ==== Sys2Proof/Laws/Index.lean ====
section
/-! SUPPORT. The index formulas as arithmetic (R5, R63, R64, R68, R72) and their ranges (R31). -/

namespace Sys2Proof.Machine

theorem entries_eq (n : Size) : n.entries = 2 ^ n.width := by cases n <;> rfl

theorem entries_pos (n : Size) : 0 < n.entries := by cases n <;> decide

theorem and_mask (n : Size) (x : Nat) : x &&& n.mask = x % n.entries := by
  rw [Size.mask, entries_eq]; exact Nat.and_two_pow_sub_one_eq_mod ..

theorem localBucket_eq (pc : Nat) : localBucket pc = pc % 128 :=
  Nat.and_two_pow_sub_one_eq_mod pc 7

theorem localBucket_lt (pc : Nat) : localBucket pc < bucketCount := by
  rw [localBucket_eq]; exact Nat.mod_lt _ (by decide)

theorem metaIndex_eq (n : Size) (pc : Nat) : metaIndex n pc = pc % n.entries := and_mask n pc

theorem metaIndex_lt (n : Size) (pc : Nat) : metaIndex n pc < n.entries := by
  rw [metaIndex_eq]; exact Nat.mod_lt _ (entries_pos n)

theorem gshareIndex_eq (n : Size) (g : GshareState) (pc : Nat) :
    gshareIndex n g pc = (pc % n.entries) ^^^ g.ghr := by rw [gshareIndex, and_mask]

theorem gshareIndex_lt {n : Size} {g : GshareState} (h : g.ghr < n.entries) (pc : Nat) :
    gshareIndex n g pc < n.entries := by
  rw [gshareIndex_eq]
  have hm := Nat.mod_lt pc (entries_pos n)
  rw [entries_eq] at h hm ⊢
  exact Nat.xor_lt_two_pow hm h

theorem shift_or (i : Nat) (o : Bool) : (i <<< 1) ||| o.toNat = 2 * i + o.toNat := by
  rw [← Nat.shiftLeft_add_eq_or_of_lt (by cases o <;> decide), Nat.shiftLeft_eq]; ring

theorem histNext_eq (n : Size) (i : Nat) (o : Bool) : histNext n i o = (2 * i + o.toNat) % n.entries := by
  rw [histNext, and_mask, shift_or]

theorem histNext_lt (n : Size) (i : Nat) (o : Bool) : histNext n i o < n.entries := by
  rw [histNext_eq]; exact Nat.mod_lt _ (entries_pos n)

end Sys2Proof.Machine
end

