-- ==== Sys2Proof/Laws/State.lean ====
section
/-! SUPPORT. One lemma per field for each update of State and for the states after construction and reset. -/

namespace Sys2Proof.Machine

variable (s : State) (r : Raise) (cfg : Cfg) (k : Kind) (n : Size) (d : Nat) (ins : List Input)

@[simp] theorem raise_cfg : (s.raise r).cfg = s.cfg := rfl
@[simp] theorem raise_predictor : (s.raise r).predictor = s.predictor := rfl
@[simp] theorem raise_pairPc : (s.raise r).pairPc = s.pairPc := rfl
@[simp] theorem raise_fault : (s.raise r).fault = r.code := rfl
@[simp] theorem raise_draws : (s.raise r).draws = s.draws := rfl
@[simp] theorem raise_answer : (s.raise r).answer = some (.fault r.code (some r)) := rfl
@[simp] theorem raise_inputs : (s.raise r).inputs = s.inputs := rfl
@[simp] theorem raise_kind : (s.raise r).kind = s.kind := rfl

@[simp] theorem answerFaulted_cfg : s.answerFaulted.cfg = s.cfg := rfl
@[simp] theorem answerFaulted_predictor : s.answerFaulted.predictor = s.predictor := rfl
@[simp] theorem answerFaulted_pairPc : s.answerFaulted.pairPc = s.pairPc := rfl
@[simp] theorem answerFaulted_fault : s.answerFaulted.fault = s.fault := rfl
@[simp] theorem answerFaulted_draws : s.answerFaulted.draws = s.draws := rfl
@[simp] theorem answerFaulted_answer : s.answerFaulted.answer = some (.fault s.fault none) := rfl
@[simp] theorem answerFaulted_inputs : s.answerFaulted.inputs = s.inputs := rfl
@[simp] theorem answerFaulted_kind : s.answerFaulted.kind = s.kind := rfl

@[simp] theorem answerNone_cfg : s.answerNone.cfg = s.cfg := rfl
@[simp] theorem answerNone_predictor : s.answerNone.predictor = s.predictor := rfl
@[simp] theorem answerNone_pairPc : s.answerNone.pairPc = s.pairPc := rfl
@[simp] theorem answerNone_fault : s.answerNone.fault = s.fault := rfl
@[simp] theorem answerNone_draws : s.answerNone.draws = s.draws := rfl
@[simp] theorem answerNone_answer : s.answerNone.answer = some (.ok .none) := rfl
@[simp] theorem answerNone_inputs : s.answerNone.inputs = s.inputs := rfl
@[simp] theorem answerNone_kind : s.answerNone.kind = s.kind := rfl

@[simp] theorem freshPredictor_kind (draw : Selector) : (freshPredictor k n draw).kind = k := by
  cases k <;> rfl

@[simp] theorem fresh_cfg : (State.fresh cfg k d ins).cfg = cfg := rfl
@[simp] theorem fresh_predictor :
    (State.fresh cfg k d ins).predictor = freshPredictor k cfg.size (Config.lastUsedReset d) := rfl
@[simp] theorem fresh_pairPc : (State.fresh cfg k d ins).pairPc = none := rfl
@[simp] theorem fresh_fault : (State.fresh cfg k d ins).fault = 0 := rfl
@[simp] theorem fresh_draws : (State.fresh cfg k d ins).draws = d + 1 := rfl
@[simp] theorem fresh_answer : (State.fresh cfg k d ins).answer = none := rfl
@[simp] theorem fresh_inputs : (State.fresh cfg k d ins).inputs = ins := rfl
@[simp] theorem fresh_kind : (State.fresh cfg k d ins).kind = k := freshPredictor_kind k cfg.size _

/-- The reset input keeps the configuration and the kind (R97). -/
theorem resetInput_eq : s.resetInput = State.fresh s.cfg s.kind s.draws s.inputs := rfl

/-- Taking an input changes nothing but the inputs. -/
theorem takeInput_state : s.takeInput.2 = { s with inputs := s.inputs.tail } := by
  unfold State.takeInput
  split <;> simp_all
  cases s; simp_all

theorem takeInput_cons {s : State} {i : Input} {rest : List Input} (h : s.inputs = i :: rest) :
    s.takeInput = (i, { s with inputs := rest }) := by
  simp [State.takeInput, h]

theorem takeInput_nil {s : State} (h : s.inputs = []) : s.takeInput = (.command idleWord, s) := by
  simp [State.takeInput, h]

end Sys2Proof.Machine
end

