-- ==== Sys2Proof/Laws/Predictor.lean ====
section
/-! SUPPORT. What the kind rules can do (R65, R66, R69, R70, R73, R77), that they keep the configured shape, and that on that shape they raise nothing (R31). -/

namespace Sys2Proof.Machine

variable {n : Size}

theorem local_ok_iff {l : LocalState} :
    l.ok n = true ↔ l.pht.length = n.entries ∧ l.hist.length = 128 ∧ ∀ h ∈ l.hist, h < n.entries := by
  change _ ↔ _ ∧ l.hist.length = bucketCount ∧ _
  simp [LocalState.ok, tableOk, and_assoc]

theorem gshare_ok_iff {g : GshareState} : g.ok n = true ↔ g.pht.length = n.entries ∧ g.ghr < n.entries := by
  simp [GshareState.ok, tableOk]

theorem tournament_ok_iff {t : TournamentState} :
    t.ok n = true ↔ t.L.ok n = true ∧ t.G.ok n = true ∧ t.metaTable.length = n.entries := by
  simp [TournamentState.ok, tableOk, and_assoc]

theorem inv_iff {s : State} :
    s.inv = true ↔ 12 ≤ s.cfg.pcWidth ∧ s.predictor.ok s.cfg.size = true ∧
      pairPcOk s.cfg.pcWidth s.pairPc = true ∧ faultOk s.fault = true := by
  change _ ↔ Config.leastPcWidth ≤ s.cfg.pcWidth ∧ _
  simp [State.inv, and_assoc]

/-! The local predictor. -/

theorem localPred_ok_iff {l : LocalState} {pc : Nat} {b : Bool} :
    localPred l pc = .ok b ↔ ∃ h c, l.hist[localBucket pc]? = some h ∧ l.pht[h]? = some c ∧ taken c = b := by
  unfold localPred localIndex
  constructor
  · intro hb
    split at hb
    · next h hh =>
      obtain ⟨c, hc, rfl⟩ := ctRead_ok_iff.1 hb
      exact ⟨h, c, tblRead_ok_iff.1 hh, hc, rfl⟩
    · simp at hb
  · rintro ⟨h, c, hh, hc, rfl⟩
    rw [tblRead_ok_iff.2 hh]
    exact ctRead_ok_iff.2 ⟨c, hc, rfl⟩

theorem localTrain_ok_iff {l l' : LocalState} {pc : Nat} {o : Bool} :
    localTrain n l pc o = .ok l' ↔ ∃ h c, l.hist[localBucket pc]? = some h ∧ l.pht[h]? = some c ∧
      l' = { pht := tblWrite l.pht h (trained c o), hist := tblWrite l.hist (localBucket pc) (histNext n h o) } := by
  unfold localTrain localIndex
  constructor
  · intro hl
    split at hl
    · simp at hl
    · next h hh =>
      split at hl
      · simp at hl
      · next u hu =>
        obtain ⟨c, hc, rfl⟩ := ctTrain_ok_iff.1 hu
        refine ⟨h, c, tblRead_ok_iff.1 hh, hc, ?_⟩
        simpa using hl.symm
  · rintro ⟨h, c, hh, hc, rfl⟩
    rw [tblRead_ok_iff.2 hh]
    simp only [ctTrain_ok_iff.2 ⟨c, hc, rfl⟩]

/-- On a state of the configured shape the local index and its counter exist (R31). -/
theorem local_entries {l : LocalState} (hok : l.ok n = true) (pc : Nat) :
    ∃ h c, l.hist[localBucket pc]? = some h ∧ l.pht[h]? = some c ∧ h < n.entries := by
  obtain ⟨hp, hh, hb⟩ := local_ok_iff.1 hok
  have hlt : localBucket pc < l.hist.length := by rw [hh]; exact localBucket_lt pc
  have hin := hb _ (List.getElem_mem hlt)
  exact ⟨_, l.pht[l.hist[localBucket pc]]'(by omega), List.getElem?_eq_getElem hlt,
    List.getElem?_eq_getElem _, hin⟩

theorem localTrain_keeps_ok {l l' : LocalState} {pc : Nat} {o : Bool} (hok : l.ok n = true)
    (h : localTrain n l pc o = .ok l') : l'.ok n = true := by
  obtain ⟨i, c, -, -, rfl⟩ := localTrain_ok_iff.1 h
  obtain ⟨hp, hh, hb⟩ := local_ok_iff.1 hok
  refine local_ok_iff.2 ⟨by simp [tblWrite, hp], by simp [tblWrite, hh], fun x hx => ?_⟩
  rcases List.mem_or_eq_of_mem_set hx with hx | rfl
  · exact hb x hx
  · exact histNext_lt ..

/-! The gshare predictor. -/

theorem gsharePred_ok_iff {g : GshareState} {pc : Nat} {b : Bool} :
    gsharePred n g pc = .ok b ↔ ∃ c, g.pht[gshareIndex n g pc]? = some c ∧ taken c = b := ctRead_ok_iff

theorem gshareTrain_ok_iff {g g' : GshareState} {pc : Nat} {o : Bool} :
    gshareTrain n g pc o = .ok g' ↔ ∃ c, g.pht[gshareIndex n g pc]? = some c ∧
      g' = { pht := tblWrite g.pht (gshareIndex n g pc) (trained c o), ghr := histNext n (gshareIndex n g pc) o } := by
  unfold gshareTrain
  constructor
  · intro hg
    split at hg
    · simp at hg
    · next u hu =>
      obtain ⟨c, hc, rfl⟩ := ctTrain_ok_iff.1 hu
      exact ⟨c, hc, by simpa using hg.symm⟩
  · rintro ⟨c, hc, rfl⟩
    simp only [ctTrain_ok_iff.2 ⟨c, hc, rfl⟩]

theorem gshare_entry {g : GshareState} (hok : g.ok n = true) (pc : Nat) :
    ∃ c, g.pht[gshareIndex n g pc]? = some c := by
  obtain ⟨hp, hg⟩ := gshare_ok_iff.1 hok
  exact ⟨_, List.getElem?_eq_getElem (by rw [hp]; exact gshareIndex_lt hg pc)⟩

theorem gshareTrain_keeps_ok {g g' : GshareState} {pc : Nat} {o : Bool} (hok : g.ok n = true)
    (h : gshareTrain n g pc o = .ok g') : g'.ok n = true := by
  obtain ⟨c, -, rfl⟩ := gshareTrain_ok_iff.1 h
  exact gshare_ok_iff.2 ⟨by simp [tblWrite, (gshare_ok_iff.1 hok).1], histNext_lt ..⟩

/-! The tournament predictor. -/

theorem tournamentPredict_ok_iff {t t' : TournamentState} {pc : Nat} {b : Bool} :
    tournamentPredict n t pc = .ok (t', b) ↔ ∃ c, t.metaTable[metaIndex n pc]? = some c ∧
      t' = { t with lastUsed := sel c } ∧ selectedPred n t' pc = .ok b := by
  unfold tournamentPredict
  constructor
  · intro h
    split at h
    · simp at h
    · next c hc =>
      refine ⟨c, tblRead_ok_iff.1 hc, ?_⟩
      cases hs : selectedPred n { t with lastUsed := sel c } pc with
      | error e => simp [hs, Except.map] at h
      | ok b' => simp [hs, Except.map] at h; obtain ⟨rfl, rfl⟩ := h; exact ⟨rfl, hs⟩
  · rintro ⟨c, hc, rfl, hs⟩
    rw [tblRead_ok_iff.2 hc]
    simp [hs, Except.map]

theorem tournamentTrain_ok_iff {cfg : Cfg} {t t' : TournamentState} {pc : Nat} {o : Bool} :
    tournamentTrain cfg t pc o = .ok t' ↔ ∃ pl pg l g m, localPred t.L pc = .ok pl ∧
      gsharePred cfg.size t.G pc = .ok pg ∧ localTrain cfg.size t.L pc o = .ok l ∧
      gshareTrain cfg.size t.G pc o = .ok g ∧
      metaApply t.metaTable (metaIndex cfg.size pc) (trainDelta cfg.metaReading pl pg o t.lastUsed) = .ok m ∧
      t' = { L := l, G := g, metaTable := m, lastUsed := t.lastUsed } := by
  unfold tournamentTrain
  constructor
  · intro h
    cases h1 : localPred t.L pc with
    | error e => simp [h1, bind, Except.bind] at h
    | ok pl =>
    cases h2 : gsharePred cfg.size t.G pc with
    | error e => simp [h1, h2, bind, Except.bind] at h
    | ok pg =>
    cases h3 : localTrain cfg.size t.L pc o with
    | error e => simp [h1, h2, h3, bind, Except.bind] at h
    | ok l =>
    cases h4 : gshareTrain cfg.size t.G pc o with
    | error e => simp [h1, h2, h3, h4, bind, Except.bind] at h
    | ok g =>
    cases h5 : metaApply t.metaTable (metaIndex cfg.size pc) (trainDelta cfg.metaReading pl pg o t.lastUsed) with
    | error e => simp [h1, h2, h3, h4, h5, bind, Except.bind] at h
    | ok m =>
      simp [h1, h2, h3, h4, h5, bind, Except.bind, pure, Except.pure] at h
      exact ⟨pl, pg, l, g, m, rfl, rfl, rfl, rfl, h5, h.symm⟩
  · rintro ⟨pl, pg, l, g, m, h1, h2, h3, h4, h5, rfl⟩
    simp [h1, h2, h3, h4, h5, bind, Except.bind, pure, Except.pure]

theorem selectedPred_of_ok {t : TournamentState} (hok : t.ok n = true) (pc : Nat) :
    ∃ b, selectedPred n t pc = .ok b := by
  obtain ⟨hl, hg, -⟩ := tournament_ok_iff.1 hok
  unfold selectedPred
  split
  · obtain ⟨c, hc⟩ := gshare_entry hg pc
    exact ⟨_, gsharePred_ok_iff.2 ⟨c, hc, rfl⟩⟩
  · obtain ⟨h, c, hh, hc, -⟩ := local_entries hl pc
    exact ⟨_, localPred_ok_iff.2 ⟨h, c, hh, hc, rfl⟩⟩

theorem tournamentPredict_of_ok {t : TournamentState} (hok : t.ok n = true) (pc : Nat) :
    ∃ r, tournamentPredict n t pc = .ok r := by
  obtain ⟨hl, hg, hm⟩ := tournament_ok_iff.1 hok
  have hlt : metaIndex n pc < t.metaTable.length := by rw [hm]; exact metaIndex_lt n pc
  obtain ⟨b, hb⟩ := selectedPred_of_ok (t := { t with lastUsed := sel t.metaTable[metaIndex n pc] })
    (tournament_ok_iff.2 ⟨hl, hg, hm⟩) pc
  exact ⟨_, tournamentPredict_ok_iff.2 ⟨_, List.getElem?_eq_getElem hlt, rfl, hb⟩⟩

theorem tournamentTrain_of_ok {cfg : Cfg} {t : TournamentState} (hok : t.ok cfg.size = true) (pc : Nat) (o : Bool) :
    ∃ t', tournamentTrain cfg t pc o = .ok t' := by
  obtain ⟨hl, hg, hm⟩ := tournament_ok_iff.1 hok
  obtain ⟨h, c, hh, hc, -⟩ := local_entries hl pc
  obtain ⟨d, hd⟩ := gshare_entry hg pc
  obtain ⟨m, hmm⟩ := metaApply_of_lt (t := t.metaTable) (i := metaIndex cfg.size pc)
    (trainDelta cfg.metaReading (taken c) (taken d) o t.lastUsed) (by rw [hm]; exact metaIndex_lt ..)
  exact ⟨_, tournamentTrain_ok_iff.2 ⟨_, _, _, _, m, localPred_ok_iff.2 ⟨h, c, hh, hc, rfl⟩,
    gsharePred_ok_iff.2 ⟨d, hd, rfl⟩, localTrain_ok_iff.2 ⟨h, c, hh, hc, rfl⟩,
    gshareTrain_ok_iff.2 ⟨d, hd, rfl⟩, hmm, rfl⟩⟩

theorem tournamentTrain_keeps_ok {cfg : Cfg} {t t' : TournamentState} {pc : Nat} {o : Bool}
    (hok : t.ok cfg.size = true) (h : tournamentTrain cfg t pc o = .ok t') : t'.ok cfg.size = true := by
  obtain ⟨pl, pg, l, g, m, -, -, h3, h4, h5, rfl⟩ := tournamentTrain_ok_iff.1 h
  obtain ⟨hl, hg, hm⟩ := tournament_ok_iff.1 hok
  exact tournament_ok_iff.2 ⟨localTrain_keeps_ok hl h3, gshareTrain_keeps_ok hg h4, (metaApply_ok h5).1.trans hm⟩

end Sys2Proof.Machine
end

