-- ==== Sys2Proof/Laws/Exec.lean ====
section
/-! SUPPORT. What a command can do, said once (R49 to R54, R86): if `exec` answers a next state, it is one of five. -/

namespace Sys2Proof.Machine

variable {s t : State} {k : Result} {pc : Nat}

theorem whenRunning_next (h : whenRunning s k = .next t) :
    (s.fault ≠ noFault ∧ t = s.answerFaulted) ∨ (s.fault = noFault ∧ k = .next t) := by
  unfold whenRunning at h
  split at h
  · next hf => exact .inr ⟨hf, h⟩
  · next hf => exact .inl ⟨hf, by simpa using h.symm⟩

theorem whenRunning_of_noFault (h : s.fault = 0) : whenRunning s k = k := if_pos h

theorem whenRunning_of_fault (h : s.fault ≠ 0) : whenRunning s k = .next s.answerFaulted := if_neg h

/-- The state after a PREDICT that raised nothing (R49, R53). -/
def State.predicted (s : State) (pc : Nat) (q : Predictor) (b : Bool) : State :=
  { s with predictor := q, pairPc := some pc, answer := some (.ok (.pred b)) }

/-- The state after a TRAIN that raised nothing (R49, R53). -/
def State.trainedTo (s : State) (q : Predictor) : State :=
  { s with predictor := q, pairPc := none, answer := some (.ok .none) }

theorem finishPredict_ok (q : Predictor) (b : Bool) : s.finishPredict pc (.ok (q, b)) = s.predicted pc q b := rfl

theorem finishPredict_error (r : Raise) : s.finishPredict pc (.error r) = s.raise r := rfl

theorem pairCheck_ok_iff : s.pairCheck pc = .ok () ↔ (s.cfg.strictPairing = true → s.pairPc = some pc) := by
  unfold State.pairCheck; split <;> simp_all

theorem pairCheck_error {r : Raise} (h : s.pairCheck pc = .error r) :
    r = .protocolViolation pc s.pairPc ∧ s.cfg.strictPairing = true ∧ s.pairPc ≠ some pc := by
  unfold State.pairCheck at h
  split at h
  · next hc => exact ⟨by simpa using h.symm, hc⟩
  · simp at h

theorem finishTrain_ok {q : Predictor} (h : s.cfg.strictPairing = true → s.pairPc = some pc) :
    s.finishTrain pc (.ok q) = s.trainedTo q := by
  simp [State.finishTrain, pairCheck_ok_iff.2 h, State.trainedTo]

/-- Every way a TRAIN can end (R52, R53, R86). -/
theorem finishTrain_cases (p : Except Raise Predictor) :
    (∃ r, s.pairCheck pc = .error r ∧ s.finishTrain pc p = s.raise r) ∨
    (∃ r, s.pairCheck pc = .ok () ∧ p = .error r ∧ s.finishTrain pc p = s.raise r) ∨
    (∃ q, s.pairCheck pc = .ok () ∧ p = .ok q ∧ s.finishTrain pc p = s.trainedTo q) := by
  cases hc : s.pairCheck pc with
  | error r => exact .inl ⟨r, rfl, by simp [State.finishTrain, hc]⟩
  | ok u =>
    cases p with
    | error r => exact .inr (.inl ⟨r, rfl, rfl, by simp [State.finishTrain, hc]⟩)
    | ok q => exact .inr (.inr ⟨q, rfl, rfl, by simp [State.finishTrain, hc, State.trainedTo]⟩)

/-! Each kind's rule with the KIND of the state in view. -/

/-- The predictor state and prediction that the kind rule of a PREDICT gives (R49). -/
def predictRule (cfg : Cfg) (pc : Nat) : Predictor → Except Raise (Predictor × Bool)
  | .alwaysTaken => .ok (.alwaysTaken, true)
  | .ofLocal l => (localPred l pc).map fun b => (.ofLocal l, b)
  | .ofGshare g => (gsharePred cfg.size g pc).map fun b => (.ofGshare g, b)
  | .ofTournament t => (tournamentPredict cfg.size t pc).map fun r => (.ofTournament r.1, r.2)

/-- The predictor state that the kind rule of a TRAIN gives (R49). -/
def trainRule (cfg : Cfg) (pc : Nat) (o : Bool) : Predictor → Except Raise Predictor
  | .alwaysTaken => .ok .alwaysTaken
  | .ofLocal l => (localTrain cfg.size l pc o).map .ofLocal
  | .ofGshare g => (gshareTrain cfg.size g pc o).map .ofGshare
  | .ofTournament t => (tournamentTrain cfg t pc o).map .ofTournament

/-- R49 for PREDICT: the row of the block's KIND runs its kind rule. -/
theorem exec_predict_row (pc : Nat) (s : State) :
    exec ((Command.predict pc).row s.kind) s =
      whenRunning s (.next (s.finishPredict pc (predictRule s.cfg pc s.predictor))) := by
  cases h : s.predictor <;>
    simp [State.kind, h, Predictor.kind, Command.row, exec, execPredictAlwaysTaken, execPredictLocal,
      execPredictGshare, execPredictTournament, predictRule]

/-- R49 for TRAIN. -/
theorem exec_train_row (pc : Nat) (o : Bool) (s : State) :
    exec ((Command.train pc o).row s.kind) s =
      whenRunning s (.next (s.finishTrain pc (trainRule s.cfg pc o s.predictor))) := by
  cases h : s.predictor <;>
    simp [State.kind, h, Predictor.kind, Command.row, exec, execTrainAlwaysTaken, execTrainLocal,
      execTrainGshare, execTrainTournament, trainRule]

theorem exec_idle (s : State) : exec .idle s = whenRunning s (.next s.answerNone) := rfl

theorem exec_reserved (w : Nat) (s : State) :
    exec (.reserved w) s = whenRunning s (.next (s.raise (.reservedCommand w))) := rfl

/-- A row of another KIND than the block's is refused (log 8). -/
theorem exec_otherKind {i : Instr} {k : Kind} (hf : s.fault = 0) (hi : i.kind = some k) (hk : k ≠ s.kind) :
    exec i s = .refused .otherKind := by
  cases i <;> simp [Instr.kind] at hi <;> subst hi <;>
    simp only [exec, execPredictAlwaysTaken, execPredictLocal, execPredictGshare, execPredictTournament,
      execTrainAlwaysTaken, execTrainLocal, execTrainGshare, execTrainTournament, whenRunning_of_noFault hf] <;>
    split <;> simp_all [State.kind, Predictor.kind]

/-- An instruction that answers a next state on a block that is not faulted is the row of the block's own KIND. -/
theorem row_of_next {i : Instr} (hf : s.fault = 0) (h : exec i s = .next t) : i = i.command.row s.kind := by
  cases hi : i.kind with
  | none => cases i <;> simp [Instr.kind] at hi <;> rfl
  | some k =>
    by_cases hk : k = s.kind
    · subst hk; cases i <;> simp [Instr.kind] at hi <;> simp [Instr.command, Command.row, ← hi]
    · rw [exec_otherKind hf hi hk] at h; simp at h

/-- On a faulted block every instruction only answers the fault (R50). -/
theorem exec_faulted (i : Instr) (hf : s.fault ≠ 0) : exec i s = .next s.answerFaulted := by
  cases i <;> exact whenRunning_of_fault hf

/-- Everything an instruction can do: what is next is the faulted block's answer, IDLE's, a fault entry, or the end of a PREDICT or of a TRAIN by the kind rule. -/
theorem exec_next {i : Instr} (h : exec i s = .next t) :
    (s.fault ≠ 0 ∧ t = s.answerFaulted) ∨
    (s.fault = 0 ∧ i = .idle ∧ t = s.answerNone) ∨
    (s.fault = 0 ∧ ∃ w, i = .reserved w ∧ t = s.raise (.reservedCommand w)) ∨
    (s.fault = 0 ∧ ∃ pc, i.command = .predict pc ∧ t = s.finishPredict pc (predictRule s.cfg pc s.predictor)) ∨
    (s.fault = 0 ∧ ∃ pc o, i.command = .train pc o ∧ t = s.finishTrain pc (trainRule s.cfg pc o s.predictor)) := by
  by_cases hf : s.fault = 0
  · refine .inr ?_
    have hrow := row_of_next hf h
    cases hc : i.command with
    | idle =>
      have hi : i = .idle := by rw [hrow, hc]; rfl
      subst hi
      rw [exec_idle, whenRunning_of_noFault hf] at h
      exact .inl ⟨hf, rfl, by simpa using h.symm⟩
    | reserved w =>
      have hi : i = .reserved w := by rw [hrow, hc]; rfl
      subst hi
      rw [exec_reserved, whenRunning_of_noFault hf] at h
      exact .inr (.inl ⟨hf, w, rfl, by simpa using h.symm⟩)
    | predict pc =>
      rw [hrow, hc, exec_predict_row, whenRunning_of_noFault hf] at h
      exact .inr (.inr (.inl ⟨hf, pc, rfl, by simpa using h.symm⟩))
    | train pc o =>
      rw [hrow, hc, exec_train_row, whenRunning_of_noFault hf] at h
      exact .inr (.inr (.inr ⟨hf, pc, o, rfl, by simpa using h.symm⟩))
  · rw [exec_faulted i hf] at h
    exact .inl ⟨hf, by simpa using h.symm⟩

/-! The kind rules on states of the configured shape. -/

theorem map_ok_iff {α β : Type} {f : α → β} {p : Except Raise α} {b : β} :
    p.map f = .ok b ↔ ∃ a, p = .ok a ∧ f a = b := by
  cases p <;> simp [Except.map]

theorem map_error_iff {α β : Type} {f : α → β} {p : Except Raise α} {r : Raise} :
    p.map f = .error r ↔ p = .error r := by
  cases p <;> simp [Except.map]

/-- A PREDICT changes no predictor state but a tournament's selector, which becomes the selection of the meta-counter (R34, R73). -/
theorem predictRule_ok {cfg : Cfg} {p q : Predictor} {b : Bool} (h : predictRule cfg pc p = .ok (q, b)) :
    (q = p ∧ ∀ t, p ≠ .ofTournament t) ∨
    ∃ t c, p = .ofTournament t ∧ t.metaTable[metaIndex cfg.size pc]? = some c ∧
      q = .ofTournament { t with lastUsed := sel c } ∧ selectedPred cfg.size { t with lastUsed := sel c } pc = .ok b := by
  cases p with
  | alwaysTaken => simp [predictRule] at h; exact .inl ⟨h.1.symm, by simp⟩
  | ofLocal l => obtain ⟨a, -, ha⟩ := map_ok_iff.1 h; simp at ha; simp [← ha.1]
  | ofGshare g => obtain ⟨a, -, ha⟩ := map_ok_iff.1 h; simp at ha; simp [← ha.1]
  | ofTournament t =>
    obtain ⟨⟨t', b'⟩, ha, hb⟩ := map_ok_iff.1 h
    simp at hb
    obtain ⟨rfl, rfl⟩ := hb
    obtain ⟨c, hc, rfl, hs⟩ := tournamentPredict_ok_iff.1 ha
    exact .inr ⟨t, c, rfl, hc, rfl, hs⟩

theorem predictRule_keeps_ok {cfg : Cfg} {p q : Predictor} {b : Bool} (hok : p.ok cfg.size = true)
    (h : predictRule cfg pc p = .ok (q, b)) : q.ok cfg.size = true := by
  rcases predictRule_ok h with ⟨rfl, -⟩ | ⟨t, c, rfl, -, rfl, -⟩
  · exact hok
  · exact tournament_ok_iff.2 ((tournament_ok_iff (t := t)).1 hok)

theorem predictRule_of_ok {cfg : Cfg} {p : Predictor} (hok : p.ok cfg.size = true) (pc : Nat) :
    ∃ q b, predictRule cfg pc p = .ok (q, b) := by
  cases p with
  | alwaysTaken => exact ⟨_, _, rfl⟩
  | ofLocal l =>
    obtain ⟨h, c, hh, hc, -⟩ := local_entries hok pc
    exact ⟨_, _, map_ok_iff.2 ⟨_, localPred_ok_iff.2 ⟨h, c, hh, hc, rfl⟩, rfl⟩⟩
  | ofGshare g =>
    obtain ⟨c, hc⟩ := gshare_entry hok pc
    exact ⟨_, _, map_ok_iff.2 ⟨_, gsharePred_ok_iff.2 ⟨c, hc, rfl⟩, rfl⟩⟩
  | ofTournament t =>
    obtain ⟨r, hr⟩ := tournamentPredict_of_ok (t := t) hok pc
    exact ⟨_, _, map_ok_iff.2 ⟨r, hr, rfl⟩⟩

theorem trainRule_keeps_ok {cfg : Cfg} {p q : Predictor} {o : Bool} (hok : p.ok cfg.size = true)
    (h : trainRule cfg pc o p = .ok q) : q.ok cfg.size = true ∧ q.kind = p.kind := by
  cases p with
  | alwaysTaken => simp [trainRule] at h; subst h; exact ⟨hok, rfl⟩
  | ofLocal l => obtain ⟨a, ha, rfl⟩ := map_ok_iff.1 h; exact ⟨localTrain_keeps_ok hok ha, rfl⟩
  | ofGshare g => obtain ⟨a, ha, rfl⟩ := map_ok_iff.1 h; exact ⟨gshareTrain_keeps_ok hok ha, rfl⟩
  | ofTournament t => obtain ⟨a, ha, rfl⟩ := map_ok_iff.1 h; exact ⟨tournamentTrain_keeps_ok hok ha, rfl⟩

theorem trainRule_of_ok {cfg : Cfg} {p : Predictor} (hok : p.ok cfg.size = true) (pc : Nat) (o : Bool) :
    ∃ q, trainRule cfg pc o p = .ok q := by
  cases p with
  | alwaysTaken => exact ⟨_, rfl⟩
  | ofLocal l =>
    obtain ⟨h, c, hh, hc, -⟩ := local_entries hok pc
    exact ⟨_, map_ok_iff.2 ⟨_, localTrain_ok_iff.2 ⟨h, c, hh, hc, rfl⟩, rfl⟩⟩
  | ofGshare g =>
    obtain ⟨c, hc⟩ := gshare_entry hok pc
    exact ⟨_, map_ok_iff.2 ⟨_, gshareTrain_ok_iff.2 ⟨c, hc, rfl⟩, rfl⟩⟩
  | ofTournament t =>
    obtain ⟨r, hr⟩ := tournamentTrain_of_ok (cfg := cfg) (t := t) hok pc o
    exact ⟨_, map_ok_iff.2 ⟨r, hr, rfl⟩⟩

/-- A raise of a kind rule is INDEX_OUT_OF_RANGE (R60, R81). -/
theorem predictRule_error {cfg : Cfg} {p : Predictor} {r : Raise} (h : predictRule cfg pc p = .error r) :
    ∃ i, r = .indexOutOfRange i := by
  have rd : ∀ (t : CounterTable) i, ctRead t i = .error r → ∃ j, r = .indexOutOfRange j :=
    fun t i h => ⟨i, (ctRead_error h).2⟩
  have lp : ∀ l, localPred l pc = .error r → ∃ j, r = .indexOutOfRange j := by
    intro l hl
    unfold localPred localIndex at hl
    split at hl
    · exact rd _ _ hl
    · next e he => simp at hl; subst hl; exact ⟨_, (tblRead_error_iff.1 he).2⟩
  cases p with
  | alwaysTaken => simp [predictRule] at h
  | ofLocal l => exact lp l (map_error_iff.1 h)
  | ofGshare g => exact rd _ _ (map_error_iff.1 h)
  | ofTournament t =>
    have h := map_error_iff.1 h
    unfold tournamentPredict at h
    split at h
    · next e he => simp at h; subst h; exact ⟨_, (tblRead_error_iff.1 he).2⟩
    · have h := map_error_iff.1 h
      unfold selectedPred at h
      split at h
      · exact rd _ _ h
      · exact lp _ h

theorem trainRule_error {cfg : Cfg} {p : Predictor} {o : Bool} {r : Raise} (h : trainRule cfg pc o p = .error r) :
    ∃ i, r = .indexOutOfRange i := by
  have lt : ∀ l, localTrain cfg.size l pc o = .error r → ∃ j, r = .indexOutOfRange j := by
    intro l hl
    unfold localTrain localIndex at hl
    split at hl
    · next e he => simp at hl; subst hl; exact ⟨_, (tblRead_error_iff.1 he).2⟩
    · split at hl
      · next e he => simp at hl; subst hl; exact ⟨_, (ctTrain_error he).2⟩
      · simp at hl
  have gt : ∀ g, gshareTrain cfg.size g pc o = .error r → ∃ j, r = .indexOutOfRange j := by
    intro g hg
    unfold gshareTrain at hg
    split at hg
    · next e he => simp at hg; subst hg; exact ⟨_, (ctTrain_error he).2⟩
    · simp at hg
  cases p with
  | alwaysTaken => simp [trainRule] at h
  | ofLocal l => exact lt l (map_error_iff.1 h)
  | ofGshare g => exact gt g (map_error_iff.1 h)
  | ofTournament t =>
    have h := map_error_iff.1 h
    unfold tournamentTrain at h
    cases h1 : localPred t.L pc with
    | error e =>
      simp [h1, bind, Except.bind] at h; subst h
      exact predictRule_error (cfg := cfg) (p := .ofLocal t.L) (map_error_iff.2 h1)
    | ok pl =>
    cases h2 : gsharePred cfg.size t.G pc with
    | error e =>
      simp [h1, h2, bind, Except.bind] at h; subst h
      exact predictRule_error (cfg := cfg) (p := .ofGshare t.G) (map_error_iff.2 h2)
    | ok pg =>
    cases h3 : localTrain cfg.size t.L pc o with
    | error e => simp [h1, h2, h3, bind, Except.bind] at h; subst h; exact lt _ h3
    | ok l =>
    cases h4 : gshareTrain cfg.size t.G pc o with
    | error e => simp [h1, h2, h3, h4, bind, Except.bind] at h; subst h; exact gt _ h4
    | ok g =>
    cases h5 : metaApply t.metaTable (metaIndex cfg.size pc) (trainDelta cfg.metaReading pl pg o t.lastUsed) with
    | error e =>
      simp [h1, h2, h3, h4, h5, bind, Except.bind] at h; subst h; exact ⟨_, (metaApply_error h5).2⟩
    | ok m => simp [h1, h2, h3, h4, h5, bind, Except.bind, pure, Except.pure] at h

end Sys2Proof.Machine
end

