-- ==== Sys2Proof/Laws/PerInstr.lean ====
section
/-! SUPPORT. Facts stated of every instruction as syntax, one lemma per constructor. -/

namespace Sys2Proof.Laws

/-- The `match` column of an instruction's row in spec/opcode_table.json, under its mask 0x3. -/
def tableMatch : Instr → Nat
  | .idle => 0x0
  | .predictAlwaysTaken _ => 0x1
  | .predictLocal _ => 0x1
  | .predictGshare _ => 0x1
  | .predictTournament _ => 0x1
  | .trainAlwaysTaken _ _ => 0x2
  | .trainLocal _ _ => 0x2
  | .trainGshare _ _ => 0x2
  | .trainTournament _ _ => 0x2
  | .reserved _ => 0x3

/-- The encoded word of a well-formed instruction matches its row of the opcode table. -/
def TableRow.Statement (i : Instr) : Prop :=
  ∀ pw k, i.wellFormed pw k = true → encode i &&& 0x3 = tableMatch i

theorem packed_low_bits {op : Nat} (pc : Nat) (o : Bool) (h : op < 4) : packWord pc o op &&& 0x3 = op := by
  rw [show (0x3 : Nat) = 2 ^ 2 - 1 from rfl, Nat.and_two_pow_sub_one_eq_mod, packWord_eq pc o h]
  omega

theorem TableRow.idle : TableRow.Statement .idle := fun _ _ _ => rfl
theorem TableRow.predictAlwaysTaken (pc : Nat) : TableRow.Statement (.predictAlwaysTaken pc) :=
  fun _ _ _ => packed_low_bits pc false (by decide)
theorem TableRow.predictLocal (pc : Nat) : TableRow.Statement (.predictLocal pc) :=
  fun _ _ _ => packed_low_bits pc false (by decide)
theorem TableRow.predictGshare (pc : Nat) : TableRow.Statement (.predictGshare pc) :=
  fun _ _ _ => packed_low_bits pc false (by decide)
theorem TableRow.predictTournament (pc : Nat) : TableRow.Statement (.predictTournament pc) :=
  fun _ _ _ => packed_low_bits pc false (by decide)
theorem TableRow.trainAlwaysTaken (pc : Nat) (o : Bool) : TableRow.Statement (.trainAlwaysTaken pc o) :=
  fun _ _ _ => packed_low_bits pc o (by decide)
theorem TableRow.trainLocal (pc : Nat) (o : Bool) : TableRow.Statement (.trainLocal pc o) :=
  fun _ _ _ => packed_low_bits pc o (by decide)
theorem TableRow.trainGshare (pc : Nat) (o : Bool) : TableRow.Statement (.trainGshare pc o) :=
  fun _ _ _ => packed_low_bits pc o (by decide)
theorem TableRow.trainTournament (pc : Nat) (o : Bool) : TableRow.Statement (.trainTournament pc o) :=
  fun _ _ _ => packed_low_bits pc o (by decide)
theorem TableRow.reserved (w : Nat) : TableRow.Statement (.reserved w) := by
  intro pw k h
  simp only [Instr.wellFormed, Instr.check] at h
  split at h
  · simp at h
  · next h3 =>
    rw [show (0x3 : Nat) = 2 ^ 2 - 1 from rfl, Nat.and_two_pow_sub_one_eq_mod]
    exact not_not.1 h3

end Sys2Proof.Laws
end

