-- ==== Sys2Proof/Laws/Step.lean ====
section
/-! SUPPORT. What a step can do, said once: `step_next`; and what every instruction keeps (R9, R22, R50). -/

namespace Sys2Proof.Machine

/-- Every word of PC_WIDTH + 3 bits decodes, to a well-formed row of the given KIND (R45, R49). -/
theorem decode_of_fits {pw : Nat} {k : Kind} {w : Nat} (h : w < 2 ^ (pw + 3)) :
    ∃ i, decode pw k w = .ok i ∧ i = i.command.row k ∧ i.wellFormed pw k = true := by
  simp only [decode, decodeCommand, wordFits_iff.2 h, if_true, op_eq, pc_of_fits h]
  have hp : pcFits pw (w / 8) = true := pcFits_iff.2 (div_fits_iff.2 h)
  have h3 : w % 4 ≠ 0 → w % 4 ≠ 1 → w % 4 ≠ 2 → w % 4 = 3 := by omega
  split_ifs <;> refine ⟨_, rfl, ?_⟩ <;> cases k <;>
    simp_all [Command.row, Instr.command, Instr.wellFormed, Instr.check, checkRow, wordFits_iff.2 h]

/-- An instruction changes neither the configuration nor the inputs, and on a faulted block not the fault code. -/
theorem exec_keeps {i : Instr} {s t : State} (h : exec i s = .next t) :
    t.cfg = s.cfg ∧ t.kind = s.kind ∧ t.inputs = s.inputs ∧ (s.fault ≠ 0 → t.fault = s.fault) := by
  rcases exec_next h with ⟨-, rfl⟩ | ⟨-, rfl, rfl⟩ | ⟨hf, w, rfl, rfl⟩ | ⟨hf, p, -, rfl⟩ | ⟨hf, p, o, -, rfl⟩
  · exact ⟨rfl, rfl, rfl, fun _ => rfl⟩
  · exact ⟨rfl, rfl, rfl, fun _ => rfl⟩
  · exact ⟨rfl, rfl, rfl, fun h => absurd hf h⟩
  · cases hr : predictRule s.cfg p s.predictor with
    | error r => exact ⟨rfl, rfl, rfl, fun h => absurd hf h⟩
    | ok q =>
      refine ⟨rfl, ?_, rfl, fun h => absurd hf h⟩
      show q.1.kind = s.predictor.kind
      rcases predictRule_ok (q := q.1) (b := q.2) hr with ⟨e, -⟩ | ⟨t, c, e1, -, e2, -⟩
      · rw [e]
      · rw [e1, e2]; rfl
  · rcases finishTrain_cases (s := s) (pc := p) (trainRule s.cfg p o s.predictor) with
      ⟨r, -, e⟩ | ⟨r, -, -, e⟩ | ⟨q, -, hq, e⟩ <;> rw [e]
    · exact ⟨rfl, rfl, rfl, fun h => absurd hf h⟩
    · exact ⟨rfl, rfl, rfl, fun h => absurd hf h⟩
    · refine ⟨rfl, ?_, rfl, fun h => absurd hf h⟩
      show q.kind = s.predictor.kind
      cases hp : s.predictor with
      | alwaysTaken => rw [hp] at hq; simp [trainRule] at hq; subst hq; rfl
      | ofLocal l => rw [hp] at hq; obtain ⟨a, -, rfl⟩ := map_ok_iff.1 hq; rfl
      | ofGshare g => rw [hp] at hq; obtain ⟨a, -, rfl⟩ := map_ok_iff.1 hq; rfl
      | ofTournament u => rw [hp] at hq; obtain ⟨a, -, rfl⟩ := map_ok_iff.1 hq; rfl

/-- Every command records an answer, and it is `Ok` exactly when no fault is held afterwards (R42, R86, R87). -/
theorem exec_answer {i : Instr} {s t : State} (h : exec i s = .next t) :
    ∃ a, t.answer = some a ∧ ((∃ r, a = .ok r) ↔ t.fault = 0) := by
  have raised : ∀ r : Raise, ∃ a, (s.raise r).answer = some a ∧ ((∃ r, a = .ok r) ↔ (s.raise r).fault = 0) :=
    fun r => ⟨_, rfl, by cases r <;> simp [State.raise, Raise.code]⟩
  rcases exec_next h with ⟨hf, rfl⟩ | ⟨hf, -, rfl⟩ | ⟨-, w, -, rfl⟩ | ⟨hf, p, -, rfl⟩ | ⟨hf, p, o, -, rfl⟩
  · exact ⟨_, rfl, by simpa [State.answerFaulted] using hf⟩
  · exact ⟨_, rfl, by simpa [State.answerNone] using hf⟩
  · exact raised _
  · cases predictRule s.cfg p s.predictor with
    | error r => exact raised r
    | ok q => exact ⟨_, rfl, by simpa [State.finishPredict] using hf⟩
  · rcases finishTrain_cases (s := s) (pc := p) (trainRule s.cfg p o s.predictor) with
      ⟨r, -, e⟩ | ⟨r, -, -, e⟩ | ⟨q, -, -, e⟩ <;> rw [e]
    · exact raised r
    · exact raised r
    · exact ⟨_, rfl, by simpa [State.trainedTo] using hf⟩

/-- The predictor state after construction has the configured shape (R16, R17, R25). -/
theorem freshPredictor_ok (k : Kind) (n : Size) (d : Selector) : (freshPredictor k n d).ok n = true := by
  have hl : (freshLocal n).ok n = true := by
    refine local_ok_iff.2 ⟨by simp [freshLocal, freshTable], by simp [freshLocal, bucketCount], fun h hh => ?_⟩
    simp [freshLocal] at hh
    rw [hh.2]; exact entries_pos n
  have hg : (freshGshare n).ok n = true := gshare_ok_iff.2 ⟨by simp [freshGshare, freshTable], entries_pos n⟩
  cases k
  · rfl
  · exact hl
  · exact hg
  · exact tournament_ok_iff.2 ⟨hl, hg, by simp [freshTable]⟩

/-- Everything a step can do: IDLE with nothing pending, the decoded instruction of the pending word, the reset input, or a construction that succeeds. -/
theorem step_next {s t : State} (h : step s = .next t) :
    (s.inputs = [] ∧ exec .idle s = .next t) ∨
    (∃ w rest i, s.inputs = .command w :: rest ∧ w < 2 ^ (s.cfg.pcWidth + 3) ∧
      decode s.cfg.pcWidth s.kind w = .ok i ∧ i.wellFormed s.cfg.pcWidth s.kind = true ∧
      exec i { s with inputs := rest } = .next t) ∨
    (∃ rest, s.inputs = .reset :: rest ∧ t = State.fresh s.cfg s.kind s.draws rest) ∨
    (∃ i rest k n, s.inputs = i :: rest ∧ ((∃ a b, i = .construct a b) ∨ (∃ a b, i = .constructCoded a b)) ∧
      t = State.fresh { s.cfg with size := n } k s.draws rest) := by
  cases hi : s.inputs with
  | nil =>
    have hd : decode s.cfg.pcWidth s.kind 0 = .ok .idle := by
      simp [decode, decodeCommand, wordFits_iff.2 (show 0 < 2 ^ (s.cfg.pcWidth + 3) by positivity), op_eq, Command.row]
    simp only [step, takeInput_nil hi, handle, idleWord, hd] at h
    exact .inl ⟨rfl, h⟩
  | cons i rest =>
    refine .inr ?_
    simp only [step, takeInput_cons hi] at h
    cases i with
    | command w =>
      by_cases hw : w < 2 ^ (s.cfg.pcWidth + 3)
      · obtain ⟨i, hd, -, hwf⟩ := decode_of_fits (k := s.kind) hw
        refine .inl ⟨w, rest, i, rfl, hw, hd, hwf, ?_⟩
        change (match decode s.cfg.pcWidth s.kind w with
          | .ok instr => exec instr { s with inputs := rest }
          | .error (.notACommandWord bad) => .refused (.notACommandWord bad)) = _ at h
        rwa [hd] at h
      · have hf : wordFits s.cfg.pcWidth w = false := by simp [wordFits]; omega
        simp [handle, decode, decodeCommand, hf] at h
    | reset =>
      simp only [handle] at h
      exact .inr (.inl ⟨rest, rfl, by injection h with h; exact h.symm⟩)
    | construct a b =>
      simp only [handle, State.constructed] at h
      split at h
      · next k n _ => exact .inr (.inr ⟨_, rest, k, n, rfl, .inl ⟨_, _, rfl⟩, by injection h with h; exact h.symm⟩)
      · simp at h
    | constructCoded a b =>
      simp only [handle, State.constructed] at h
      split at h
      · next k n _ => exact .inr (.inr ⟨_, rest, k, n, rfl, .inr ⟨_, _, rfl⟩, by injection h with h; exact h.symm⟩)
      · simp at h

end Sys2Proof.Machine
end

