-- ==== Sys2Proof/Tests/Slice0.lean ====
section
/-! SUPPORT. Tests whose expected values are the spec's (95_test_vectors.md and the worked examples of the rules), and a witness for the hypotheses of each statement that has some. -/

set_option maxRecDepth 8000

namespace Sys2Proof.Tests

open Sys2Proof Sys2Proof.Machine Sys2Proof.Claims

/-! Helpers. -/

/-- A block at N = 128 and the default parameters with a given predictor state. -/
def block (p : Predictor) (pairPc : Option Nat := none) : State where
  cfg := Config.resetCfg
  predictor := p
  pairPc := pairPc
  fault := 0
  draws := 1
  answer := none
  inputs := []

/-- A fresh block of a kind, the draw LASTUSED_RESET being GLOBAL. -/
def freshBlock (k : Kind) (pairPc : Option Nat := none) : State := block (freshPredictor k .n128 .useGlobal) pairPc

/-- A list with some entries replaced. -/
def withEntries {α : Type} (l : List α) : List (Nat × α) → List α
  | [] => l
  | (i, v) :: rest => withEntries (l.set i v) rest

/-- A tournament at N = 128, written as 95_test_vectors.md writes it: entries not listed hold their reset value. -/
def tournament (lpht : List (Nat × Counter)) (lhist : List (Nat × Nat)) (gpht : List (Nat × Counter)) (ghr : Nat)
    (metas : List (Nat × Counter)) (lu : Selector) : TournamentState where
  L := { pht := withEntries (freshTable .n128) lpht, hist := withEntries (List.replicate 128 0) lhist }
  G := { pht := withEntries (freshTable .n128) gpht, ghr := ghr }
  metaTable := withEntries (freshTable .n128) metas
  lastUsed := lu

/-- The state a result goes on in. -/
def after (r : Result) : Option State :=
  match r with
  | .next t => some t
  | _ => none

/-- The answer of a result. -/
def answerOf (r : Result) : Option Answer := (after r).bind State.answer

/-- The tournament state of a result. -/
def tournamentOf (r : Result) : Option TournamentState :=
  (after r).bind fun t =>
    match t.predictor with
    | .ofTournament u => some u
    | _ => none

/-- The local state of a result. -/
def localOf (r : Result) : Option LocalState :=
  (after r).bind fun t =>
    match t.predictor with
    | .ofLocal u => some u
    | _ => none

/-- The gshare state of a result. -/
def gshareOf (r : Result) : Option GshareState :=
  (after r).bind fun t =>
    match t.predictor with
    | .ofGshare u => some u
    | _ => none

/-! WellFormed: each check refuses an ill-formed term. -/

theorem test_pc_of_65_bits_is_ill_formed :
    Instr.check 64 .localKind (.predictLocal (2 ^ 64)) = some .pcTooWide ∧
    Instr.check 64 .localKind (.predictLocal (2 ^ 64 - 1)) = none := by decide
theorem test_row_of_another_kind_is_ill_formed :
    Instr.check 64 .gshare (.trainLocal 0x10 true) = some .otherKind := by decide
theorem test_reserved_word_with_op_2_is_ill_formed :
    Instr.check 64 .gshare (.reserved 0b110) = some .notReservedOp := by decide
theorem test_reserved_word_of_68_bits_is_ill_formed :
    Instr.check 64 .gshare (.reserved (2 ^ 67 + 3)) = some .wordTooWide := by decide

/-! Decoding: words written out from R38 (op [1:0], outcome [2], pc [66:3]). -/

theorem test_decode_idle_ignores_fields : decode 64 .localKind 0b10000100 = .ok .idle := by decide
theorem test_decode_predict_always_taken : decode 64 .alwaysTaken 0b10000001 = .ok (.predictAlwaysTaken 0x10) := by decide
theorem test_decode_predict_local : decode 64 .localKind 0b10010000001 = .ok (.predictLocal 0x90) := by decide
theorem test_decode_predict_gshare_ignores_outcome : decode 64 .gshare 0b10000101 = .ok (.predictGshare 0x10) := by decide
theorem test_decode_predict_tournament : decode 64 .tournament 0b10001 = .ok (.predictTournament 0x2) := by decide
theorem test_decode_train_always_taken :
    decode 64 .alwaysTaken 0x7fffffffffffffffe = .ok (.trainAlwaysTaken 0xFFFFFFFFFFFFFFFF true) := by decide
theorem test_decode_train_local : decode 64 .localKind 0b10000010 = .ok (.trainLocal 0x10 false) := by decide
theorem test_decode_train_gshare : decode 64 .gshare 0x91a6 = .ok (.trainGshare 0x1234 true) := by decide
theorem test_decode_train_tournament : decode 64 .tournament 0b1110 = .ok (.trainTournament 0x1 true) := by decide
theorem test_decode_reserved : decode 64 .tournament 0b10000111 = .ok (.reserved 0x87) := by decide
theorem test_decode_refuses_68_bits : decode 64 .tournament (2 ^ 67) = .error (.notACommandWord (2 ^ 67)) := by decide

/-! The assembler (R48, V15, V18). -/

theorem test_assemble_program :
    assemble 64 ["new tournament, 128".toList, "PREDICT 0x10 ; comment".toList, "".toList, "train 16 , T".toList, "idle".toList]
      = .ok [.construct "tournament" 128, .command 0x81, .command 0x86, .command 0x0] := by decide
theorem test_assemble_refuses_wide_literal : assemble 12 ["predict 0x1000".toList] = .error (.literalTooWide 0x1000) := by decide

/-! IDLE and RESERVED (V19, P5). -/

theorem test_idle_keeps_the_pairing :
    exec .idle (freshBlock .localKind (some 0x10)) = .next { freshBlock .localKind (some 0x10) with answer := some (.ok .none) } := rfl
theorem test_reserved_takes_code_4 :
    ((after (exec (.reserved 0x3) (freshBlock .localKind))).map State.fault) = some 4 := by decide
theorem test_faulted_block_answers_its_first_code :
    answerOf (step ({ freshBlock .localKind with fault := 4 }.withFetchWord 8 0x81)) = some (.fault 4 none) := by decide

/-! ALWAYS_TAKEN (P6, V14). -/

theorem test_predict_always_taken :
    answerOf (exec (.predictAlwaysTaken 0xFFFFFFFFFFFFFFFF) (freshBlock .alwaysTaken)) = some (.ok (.pred true)) := by decide
theorem test_train_always_taken_clears_the_monitor :
    (after (exec (.trainAlwaysTaken 0x10 false) (freshBlock .alwaysTaken (some 0x10)))).map State.pairPc = some none := by decide

/-! LOCAL (R66's worked example; P1 rows 10, 11 and 13). -/

/-- The state of P1 after row 8. -/
def p1Row8 : LocalState where
  pht := withEntries (freshTable .n128) [(0, 1), (1, 3)]
  hist := withEntries (List.replicate 128 0) [(0x10, 3)]

theorem test_train_local_p1_row_10 :
    (localOf (exec (.trainLocal 0x10 false) (block (.ofLocal p1Row8) (some 0x10)))).map
      (fun l => (l.pht[0]?, l.pht[1]?, l.pht[3]?, l.hist[0x10]?)) = some (some 1, some 3, some 1, some 0x6) := by decide
theorem test_train_local_from_reset :
    (localOf (exec (.trainLocal 0x10 true) (freshBlock .localKind (some 0x10)))).map
      (fun l => (l.pht[0]?, l.hist[0x10]?, l.hist[0x11]?)) = some (some 3, some 1, some 0) := by decide
theorem test_predict_local_p1_row_13 :
    answerOf (exec (.predictLocal 0x11) (block (.ofLocal { pht := withEntries (freshTable .n128) [(0, 1), (1, 3), (3, 1)], hist := withEntries (List.replicate 128 0) [(0x10, 6)] })))
      = some (.ok (.pred false)) := by decide
theorem test_predict_local_p1_row_9 :
    answerOf (exec (.predictLocal 0x90) (block (.ofLocal p1Row8))) = some (.ok (.pred true)) := by decide

/-! GSHARE (V8; R70's worked example). -/

theorem test_train_gshare_v8 :
    (gshareOf (exec (.trainGshare 0x10 false) (block (.ofGshare { pht := freshTable .n128, ghr := 0x21 }) (some 0x10)))).map
      (fun g => (g.pht[0x31]?, g.ghr)) = some (some 1, 0x62) := by decide
theorem test_train_gshare_from_reset :
    (gshareOf (exec (.trainGshare 0x10 true) (freshBlock .gshare (some 0x10)))).map
      (fun g => (g.pht[0x10]?, g.ghr)) = some (some 3, 0x21) := by decide
theorem test_predict_gshare_p2_row_3_aliases :
    answerOf (exec (.predictGshare 0x400) (block (.ofGshare { pht := withEntries (freshTable .n128) [(0, 1)], ghr := 0 })))
      = some (.ok (.pred false)) := by decide

/-! TOURNAMENT (P3; V13). -/

theorem test_predict_tournament_p3_row_9 :
    tournamentOf (exec (.predictTournament 2) (block (.ofTournament (tournament [(0, 0)] [(1, 1)] [(0, 0)] 2 [(0, 3), (1, 3), (2, 1)] .useGlobal))))
      = some (tournament [(0, 0)] [(1, 1)] [(0, 0)] 2 [(0, 3), (1, 3), (2, 1)] .useLocal) := by decide
theorem test_predict_tournament_p3_row_7 :
    answerOf (exec (.predictTournament 2) (block (.ofTournament (tournament [(0, 1)] [(1, 1)] [(0, 0), (1, 3)] 3 [(0, 3), (1, 3)] .useGlobal))))
      = some (.ok (.pred true)) := by decide
theorem test_train_tournament_p3_row_8 :
    tournamentOf (exec (.trainTournament 2 false) (block (.ofTournament (tournament [(0, 1)] [(1, 1)] [(0, 0), (1, 3)] 3 [(0, 3), (1, 3)] .useGlobal)) (some 2)))
      = some (tournament [(0, 0)] [(1, 1)] [(0, 0)] 2 [(0, 3), (1, 3), (2, 1)] .useGlobal) := by decide
theorem test_train_tournament_p3_row_10 :
    tournamentOf (exec (.trainTournament 2 false) (block (.ofTournament (tournament [(0, 0)] [(1, 1)] [(0, 0)] 2 [(0, 3), (1, 3), (2, 1)] .useLocal)) (some 2)))
      = some (tournament [(0, 0)] [(1, 1)] [(0, 0)] 0 [(0, 3), (1, 3), (2, 0)] .useLocal) := by decide
/-- The meta-counter at index 0x10 of a result. -/
def metaAt0x10 (r : Result) : Option Counter := (tournamentOf r).bind fun (t : TournamentState) => List.head? (List.drop 0x10 t.metaTable)

theorem test_unchecked_train_follows_the_draw_v13 (draw : Selector) :
    metaAt0x10 (exec (.trainTournament 0x10 true) { block (freshPredictor .tournament .n128 draw) with cfg := { Config.resetCfg with strictPairing := false } })
      = some (match draw with | .useGlobal => 3 | .useLocal => 1) := by
  cases draw <;> decide

/-- V9, the rows with outcome not-taken: (pl, pg, lastUsed) under CORRECTNESS, then under PREDICTION_ONLY. -/
theorem test_meta_delta_v9_not_taken :
    ([(false, false, Selector.useGlobal), (false, false, .useLocal), (false, true, .useGlobal), (true, false, .useLocal), (true, true, .useGlobal), (true, true, .useLocal)].map
      (fun x => (trainDelta .correctness x.1 x.2.1 false x.2.2, trainDelta .predictionOnly x.1 x.2.1 false x.2.2)))
      = [(.plusOne, .zero), (.minusOne, .zero), (.minusOne, .plusOne), (.plusOne, .minusOne), (.zero, .plusOne), (.zero, .minusOne)] := by decide

/-! Counters and histories (V1, V3). -/

theorem test_counter_steps_v1 :
    ([0, 1, 2, 3].map incremented = [1, 2, 3, 3]) ∧ ([0, 1, 2, 3].map decremented = [0, 0, 1, 2]) ∧
    ([0, 1, 2, 3].map taken = [false, false, true, true]) := by decide
theorem test_hist_next_v3 :
    histNext .n128 0x7f false = 0x7e ∧ histNext .n128 0x40 true = 0x1 ∧ histNext .n1024 0x3ff true = 0x3ff ∧
    histNext .n1024 0x200 false = 0x0 ∧ histNext .n4096 0xfff false = 0xffe := by decide
theorem test_gshare_index_v7 :
    gshareIndex .n1024 { pht := [], ghr := 0x69 } 0x5234 = 0x25d ∧ gshareIndex .n4096 { pht := [], ghr := 0xabc } 0x12345 = 0x9f9 := by decide

/-! Pairing, reset and construction (V16, V18, P4). -/

theorem test_unpaired_train_v16 :
    (after (exec (.trainGshare 0x10 true) (freshBlock .gshare (some 0x1010)))).map (fun t => (t.fault, t.pairPc)) = some (5, some 0x1010) := by decide
theorem test_reset_leaves_the_faulted_state :
    (after (step { freshBlock .localKind (some 0x20) with fault := 5, inputs := [.reset] })).map (fun t => (t.fault, t.pairPc, t.kind)) =
      some (0, none, .localKind) := by decide
theorem test_construction_checks_the_kind_first_v18 :
    (match step { freshBlock .localKind with inputs := [.construct "perceptron" 100] } with | .fault f => f.code | _ => 0) = 1 ∧
    (match step { freshBlock .localKind with inputs := [.construct "local" 256] } with | .fault f => f.code | _ => 0) = 2 := by decide

/-- R43, R44: KIND = 1, SIZE = 2 is a local predictor of 4096 entries; KIND = 3, SIZE = 0 a tournament of 128. -/
theorem test_coded_construction :
    (after (step { freshBlock .gshare with inputs := [.constructCoded 1 2] })).map (fun t => (t.kind, t.cfg.size.entries)) = some (.localKind, 4096) ∧
    (after (step { freshBlock .gshare with inputs := [.constructCoded 3 0] })).map (fun t => (t.kind, t.cfg.size.entries)) = some (.tournament, 128) :=
  ⟨rfl, rfl⟩

/-- R105: the last command faulted, and the reset after it does not make the end successful. -/
theorem test_reset_after_a_fault_is_no_successful_end :
    ¬ ({ freshBlock .localKind with inputs := [.command 0x3, .reset] } : State).endsSuccessfully := by
  rintro ⟨as, u, h, -, hok⟩
  have : as = [some (.fault 4 (some (.reservedCommand 3))), none] := (congrArg Prod.fst (Option.some.inj h)).symm
  subst this
  obtain ⟨r, hr⟩ := hok (.fault 4 (some (.reservedCommand 3))) rfl
  cases hr

/-- The word placed by `withFetchWord` is what the next step runs. -/
theorem test_fetch_word_runs_next :
    step (State.reset.withFetchWord 8 0x1) = exec (.predictTournament 0) State.reset ∧ decodeTableWord 8 0x1 = some (.predictTournament 0) :=
  ⟨rfl, by decide⟩

/-! Witnesses: for each statement with hypotheses, concrete values that meet them together. -/

theorem fresh_blocks_meet_the_invariant (k : Kind) : (freshBlock k (some 0x10)).inv = true := by cases k <;> decide

theorem witness_DecodeOfEncodeIsTheInstruction :
    Instr.wellFormed 64 .tournament (.trainTournament (2 ^ 64 - 1) true) = true ∧ Instr.wellFormed 12 .gshare (.reserved (2 ^ 15 - 1)) = true := by decide
theorem witness_EncodeOfDecodeIsTheCanonicalWord : decode 64 .gshare (2 ^ 67 - 2) = .ok (.trainGshare (2 ^ 64 - 1) true) := by decide
theorem witness_EveryWordDecodesByItsOpField :
    (0 < 2 ^ (64 + 3) ∧ 0 % 4 = 0) ∧ (2 ^ 67 - 3 < 2 ^ (64 + 3) ∧ (2 ^ 67 - 3) % 4 = 1) ∧ (2 ^ 67 - 2 < 2 ^ (64 + 3) ∧ (2 ^ 67 - 2) % 4 = 2) ∧
    (2 ^ 67 - 1 < 2 ^ (64 + 3) ∧ (2 ^ 67 - 1) % 4 = 3) ∧ 2 ^ (64 + 3) ≤ 2 ^ 67 := by decide
theorem witness_DecodingIsTheSameForEveryKind : decode 64 .localKind 0x81 = .ok (.predictLocal 0x10) := by decide
theorem witness_AssembledLinesDecodeToTheirCommands : 2 ^ 12 - 1 < 2 ^ 12 ∧ 2 ^ 12 ≤ 2 ^ 12 := by decide
theorem witness_CounterOperationsTouchOneEntry : (freshTable .n128)[127]? = some 2 := by decide
theorem witness_IndexCheckRaisesOutsideTheTable : (freshTable .n128).length ≤ 128 := by decide
theorem witness_CountersHaveHysteresis :
    (freshTable .n128)[127]? = some 2 ∧ (freshTable .n128)[0]? = some 2 ∧ ctRead (freshTable .n128) 127 = .ok true := by decide
theorem witness_IdleWritesNothing : (2 ^ 67 - 4 < 2 ^ ((freshBlock .gshare).cfg.pcWidth + 3) ∧ (2 ^ 67 - 4) % 4 = 0) ∧ (freshBlock .gshare).fault = 0 ∧ ({ freshBlock .gshare with fault := 5 } : State).fault ≠ 0 := by decide
theorem witness_ReservedTakesItsFault :
    (2 ^ 67 - 1 < 2 ^ ((freshBlock .gshare).cfg.pcWidth + 3) ∧ (2 ^ 67 - 1) % 4 = 3) ∧ (freshBlock .gshare).fault = 0 := by decide
theorem witness_PredictAlwaysTakenAnswersTaken :
    (2 ^ 67 - 3 < 2 ^ ((freshBlock .alwaysTaken).cfg.pcWidth + 3) ∧ (2 ^ 67 - 3) % 4 = 1) ∧
      (freshBlock .alwaysTaken).fault = 0 ∧ (freshBlock .alwaysTaken).predictor = .alwaysTaken := by decide
theorem witness_TrainAlwaysTakenChangesNoPrediction :
    (freshBlock .alwaysTaken (some 0x10)).fault = 0 ∧ (freshBlock .alwaysTaken (some 0x10)).predictor = .alwaysTaken ∧ paired (freshBlock .alwaysTaken (some 0x10)) 0x10 :=
  ⟨rfl, rfl, fun _ => rfl⟩
theorem witness_PredictLocalReadsTheHistoryIndexedCounter :
    (freshBlock .localKind (some 0x10)).inv = true ∧ (freshBlock .localKind (some 0x10)).fault = 0 ∧ (freshBlock .localKind (some 0x10)).predictor = .ofLocal (freshLocal .n128) :=
  ⟨fresh_blocks_meet_the_invariant _, rfl, rfl⟩
theorem witness_TrainLocalMovesCounterAndHistory :
    (freshBlock .localKind (some 0x10)).inv = true ∧ (freshBlock .localKind (some 0x10)).fault = 0 ∧
      (freshBlock .localKind (some 0x10)).predictor = .ofLocal (freshLocal .n128) ∧ paired (freshBlock .localKind (some 0x10)) 0x10 :=
  ⟨fresh_blocks_meet_the_invariant _, rfl, rfl, fun _ => rfl⟩
theorem witness_PredictGshareReadsTheXorIndexedCounter :
    (freshBlock .gshare (some 0x10)).inv = true ∧ (freshBlock .gshare (some 0x10)).fault = 0 ∧ (freshBlock .gshare (some 0x10)).predictor = .ofGshare (freshGshare .n128) :=
  ⟨fresh_blocks_meet_the_invariant _, rfl, rfl⟩
/-- Also for GlobalHistoryMixesPcBits. -/
theorem witness_TrainGshareMovesCounterAndHistory :
    (freshBlock .gshare (some 0x10)).inv = true ∧ (freshBlock .gshare (some 0x10)).fault = 0 ∧
      (freshBlock .gshare (some 0x10)).predictor = .ofGshare (freshGshare .n128) ∧ paired (freshBlock .gshare (some 0x10)) 0x10 :=
  ⟨fresh_blocks_meet_the_invariant _, rfl, rfl, fun _ => rfl⟩
/-- Also for PredictTournamentRecordsAndDelegates, TrainTournamentTrainsBothAndMovesMeta. -/
theorem witness_PairedTrainReinforcesTheRightPredictor :
    ∃ t, (freshBlock .tournament (some 0x10)).inv = true ∧ (freshBlock .tournament (some 0x10)).fault = 0 ∧
      (freshBlock .tournament (some 0x10)).predictor = .ofTournament t ∧ (freshBlock .tournament (some 0x10)).pairPc = some 0x10 ∧
      paired (freshBlock .tournament (some 0x10)) 0x10 ∧
      (freshBlock .tournament (some 0x10)).selectionRecorded = true ∧ (freshBlock .tournament (some 0x10)).cfg.metaReading = .correctness :=
  ⟨_, fresh_blocks_meet_the_invariant _, rfl, rfl, rfl, fun _ => rfl, by decide, rfl⟩
theorem witness_PredictIsIdempotentAndWritesOnlyTheSelector :
    ∃ t, (Instr.predictGshare 5).command = .predict 5 ∧ (freshBlock .gshare).fault = 0 ∧ exec (.predictGshare 5) (freshBlock .gshare) = .next t ∧ t.fault = 0 :=
  ⟨_, rfl, rfl, rfl, by decide⟩
theorem witness_TrainWritesOnlyTheEntriesItsRuleNames :
    (∃ t, (Instr.trainLocal 127 true).command = .train 127 true ∧ exec (.trainLocal 127 true) (freshBlock .localKind (some 127)) = .next t ∧ t.kind = .localKind) ∧
    (∃ t, (Instr.trainGshare 0 false).command = .train 0 false ∧ exec (.trainGshare 0 false) (freshBlock .gshare (some 0)) = .next t ∧ t.kind = .gshare) ∧
    (∃ t, (Instr.trainTournament 5 true).command = .train 5 true ∧ exec (.trainTournament 5 true) (freshBlock .tournament (some 5)) = .next t ∧ t.kind = .tournament) :=
  ⟨⟨_, rfl, rfl, rfl⟩, ⟨_, rfl, rfl, rfl⟩, ⟨_, rfl, rfl, rfl⟩⟩
theorem witness_UnpairedTrainTakesProtocolViolation :
    (freshBlock .gshare (some 0x20)).fault = 0 ∧ (freshBlock .gshare (some 0x20)).cfg.strictPairing = true ∧ (freshBlock .gshare (some 0x20)).pairPc ≠ some 0x10 := by decide
theorem witness_UncheckedTrainDisregardsTheMonitor :
    ∃ s : State, s.inv = true ∧ s.fault = 0 ∧ s.cfg.strictPairing = false :=
  ⟨{ freshBlock .tournament with cfg := { Config.resetCfg with strictPairing := false } }, by decide, rfl, rfl⟩
theorem witness_FaultsArePrecise :
    ∃ t, (freshBlock .gshare).fault = 0 ∧ exec (.trainGshare 5 true) (freshBlock .gshare) = .next t ∧ t.fault ≠ 0 :=
  ⟨_, rfl, rfl, by decide⟩
theorem witness_FaultedBlockIsStuckUntilReset :
    ∃ s t : State, s.fault ≠ 0 ∧ step s = .next t ∧ t.fault ≠ s.fault ∧ s.inputs = [.reset] ∧
      (∀ i ∈ ({ s with inputs := [.command 0x81] } : State).inputs, ∃ w, i = .command w) ∧ 0x81 < 2 ^ (s.cfg.pcWidth + 3) :=
  ⟨{ freshBlock .localKind with fault := 4, inputs := [.reset] }, _, by decide, rfl, by decide, rfl, by simp, by decide⟩
theorem witness_IndexOutOfRangeIsUnreachable :
    ∃ t, (freshBlock .gshare (some 0x10)).inv = true ∧ step (freshBlock .gshare (some 0x10)) = .next t ∧ (freshBlock .gshare (some 0x10)).fault ≠ 3 :=
  ⟨_, fresh_blocks_meet_the_invariant _, rfl, by decide⟩
theorem witness_PairMonitorHoldsTheLastPredict :
    ∃ as u, observe 1 { freshBlock .gshare with inputs := [.command (Command.predict 5).encode] } = some (as, u) ∧ u.fault = 0 ∧
      ((Command.predict 5).row .gshare).wellFormed 64 .gshare = true :=
  ⟨_, _, rfl, by decide, by decide⟩
theorem witness_StepRunsTheDecodedInstruction :
    ∃ s : State, s.inputs = .command 0x86 :: [.reset] ∧ decode s.cfg.pcWidth s.kind 0x86 = .ok (.trainLocal 0x10 true) :=
  ⟨{ freshBlock .localKind with inputs := [.command 0x86, .reset] }, rfl, by decide⟩
theorem witness_StepWithNothingPendingRunsIdle : (freshBlock .gshare).inputs = [] := rfl
theorem witness_StepCompletesOnEveryCommandWord :
    ∃ s : State, s.inputs = .command (2 ^ 67 - 1) :: [] ∧ 2 ^ 67 - 1 < 2 ^ (s.cfg.pcWidth + 3) :=
  ⟨{ freshBlock .gshare with inputs := [.command (2 ^ 67 - 1)] }, rfl, by decide⟩
theorem witness_RefusalsAreOtherKindsAndLongWords :
    ((freshBlock .gshare).fault = 0 ∧ (Instr.predictLocal 5).kind = some .localKind ∧ Kind.localKind ≠ (freshBlock .gshare).kind) ∧
    ∃ s : State, s.inputs = .command (2 ^ 67) :: [] ∧ 2 ^ (s.cfg.pcWidth + 3) ≤ 2 ^ 67 :=
  ⟨by decide, { freshBlock .gshare with inputs := [.command (2 ^ 67)] }, rfl, by decide⟩
theorem witness_OnlyConstructionChangesTheConfiguration :
    ∃ s t : State, step s = .next t ∧ (∀ kind n rest, s.inputs ≠ .construct kind n :: rest) ∧ (∀ kind size rest, s.inputs ≠ .constructCoded kind size :: rest) :=
  ⟨{ freshBlock .gshare with inputs := [.reset] }, _, rfl, by simp, by simp⟩
theorem witness_ResetInputSetsConstructionValues : ({ freshBlock .gshare with inputs := [.reset] } : State).inputs = .reset :: [] := rfl
theorem witness_ConstructionGivesAFreshBlockOrNone :
    "perceptron" ∉ ["always_taken", "local", "gshare", "tournament"] ∧
    ("local" ∈ ["always_taken", "local", "gshare", "tournament"] ∧ (256 : Int) ∉ [(128 : Int), 1024, 4096]) ∧
    (Kind.ofString "gshare" = some .gshare ∧ (4096 : Int) ∈ [(128 : Int), 1024, 4096]) := by decide
theorem witness_CodedConstructionRefusesTheReservedSizeOnly :
    ({ freshBlock .gshare with inputs := [.constructCoded 3 3] } : State).inputs = .constructCoded 3 3 :: [] ∧
    ({ freshBlock .gshare with inputs := [.constructCoded 3 2] } : State).inputs = .constructCoded 3 2 :: [] ∧ (2 : BitVec 2) ≠ 3 := ⟨rfl, rfl, by decide⟩
/-- Also for FreshStatesMeetTheInvariant. -/
theorem witness_FreshBlocksPredictTaken : (freshBlock .tournament).isFresh ∧ 12 ≤ (freshBlock .tournament).cfg.pcWidth :=
  ⟨⟨.useGlobal, rfl, rfl, rfl⟩, by decide⟩
theorem witness_OnlyLowPcBitsReachThePredictor :
    ∃ t u, 0x10 % 2 ^ (max (freshBlock .gshare).cfg.size.width 7) = 0x1090 % 2 ^ (max (freshBlock .gshare).cfg.size.width 7) ∧ (freshBlock .gshare).fault = 0 ∧
      exec ((Command.predict 0x10).row (freshBlock .gshare).kind) (freshBlock .gshare) = .next t ∧ t.fault = 0 ∧
      exec ((Command.train 0x10 true).row (freshBlock .gshare).kind) { freshBlock .gshare with pairPc := some 0x10 } = .next u ∧ u.fault = 0 :=
  ⟨_, _, by decide, rfl, rfl, by decide, rfl, by decide⟩
theorem witness_LocalHistoryIsTheOutcomeShiftRegister :
    (freshLocal .n128).ok .n128 = true ∧ 127 < 128 ∧ (freshLocal .n128).hist[127]? = some 0 := by decide
theorem witness_StepKeepsTheInvariant :
    ∃ s t : State, s.inv = true ∧ step s = .next t :=
  ⟨{ freshBlock .gshare (some 0x10) with inputs := [.command 0x86] }, _, by decide, rfl⟩
theorem witness_StepKeepsTheSelectionRecorded :
    ∃ s t : State, s.selectionRecorded = true ∧ s.pairPc = some 0x10 ∧ s.kind = .tournament ∧ step s = .next t :=
  ⟨freshBlock .tournament (some 0x10), _, by decide, rfl, rfl, rfl⟩
theorem witness_PairedTracesRunWithoutFault :
    ∃ s : State, s.inv = true ∧ s.fault = 0 ∧ (∀ x ∈ [(2 ^ 64 - 1, true)], x.1 < 2 ^ s.cfg.pcWidth) ∧ s.inputs = traceInputs [(2 ^ 64 - 1, true)] :=
  ⟨{ freshBlock .tournament with inputs := traceInputs [(2 ^ 64 - 1, true)] }, by decide, rfl, by decide, rfl⟩
theorem witness_LastUsedDrawIsNeverObserved :
    ∃ as s', (freshBlock .tournament).agree { block (freshPredictor .tournament .n128 .useLocal) with draws := 7 } ∧
      (freshBlock .tournament).cfg.strictPairing = true ∧ observe 1 (freshBlock .tournament) = some (as, s') :=
  ⟨_, _, ⟨rfl, rfl, rfl, rfl, rfl, rfl, rfl, rfl, by decide⟩, rfl, rfl⟩

theorem witness_RunsEndSuccessfullyByTheirLastCommand :
    (∃ s u : State, ∃ as, s.inputs = ([0x81] ++ [0x3]).map Input.command ++ List.replicate 1 Input.reset ∧ observe s.inputs.length s = some (as, u)) ∧
    (∃ s u : State, ∃ as, s.inputs = ([] ++ [0x81]).map Input.command ++ List.replicate 0 Input.reset ∧ observe s.inputs.length s = some (as, u) ∧
      as[0]? = some (some (.ok (.pred true)))) ∧
    ∃ s u : State, ∃ as, observe s.inputs.length s = some (as, u) ∧ u.fault ≠ 0 :=
  ⟨⟨{ freshBlock .localKind with inputs := [.command 0x81, .command 0x3, .reset] }, _, _, rfl, rfl⟩,
    ⟨{ freshBlock .localKind with inputs := [.command 0x81] }, _, _, rfl, rfl, by decide⟩,
    { freshBlock .localKind with inputs := [.command 0x3] }, _, _, rfl, by decide⟩

end Sys2Proof.Tests
end

section
/-! SUPPORT. The statements of 00_scope.md: the configuration codes, one step on a command word, what a step keeps of the configuration, fresh states, and the pc bits that reach the predictor. -/

namespace Sys2Proof.Machine

/-! Configuration codes (R5, R24, R43, R44). -/

@[simp] theorem ofEntryCount_entries (n : Size) : Size.ofEntryCount n.entries = some n := by
  cases n <;> rfl

theorem ofEntryCount_ne_none_iff (e : Int) : Size.ofEntryCount e ≠ none ↔ e = 128 ∨ e = 1024 ∨ e = 4096 := by
  unfold Size.ofEntryCount
  split_ifs <;> simp [*]

/-- Settles O6: the tables are finite, and an entry count is admitted just when it is one of the three that are compared with. -/
theorem configurationCodesNameTheirConfigurations : Obligations.ConfigurationCodesNameTheirConfigurations := by
  unfold Obligations.ConfigurationCodesNameTheirConfigurations
  exact ⟨by decide, by decide, by decide, by decide, by decide, by decide, by decide, by decide,
    ofEntryCount_entries, ofEntryCount_ne_none_iff, by decide⟩

/-! One step on a command word (R13, R45, R49). -/

theorem step_command {s : State} {w : Nat} {rest : List Input} {i : Instr} (hin : s.inputs = .command w :: rest)
    (hd : decode s.cfg.pcWidth s.kind w = .ok i) : step s = exec i { s with inputs := rest } := by
  have hd' : decode s.cfg.pcWidth ({ s with inputs := rest } : State).kind w = .ok i := hd
  simp only [step, takeInput_cons hin, handle, hd']

/-- Settles O32. -/
theorem stepRunsTheDecodedInstruction : Obligations.StepRunsTheDecodedInstruction :=
  fun _ _ _ _ hin hd => step_command hin hd

theorem whenRunning_completes (s u : State) : ∃ t, whenRunning s (.next u) = .next t := by
  by_cases hf : s.fault = 0
  · exact ⟨u, whenRunning_of_noFault hf⟩
  · exact ⟨_, whenRunning_of_fault hf⟩

/-- A command's row at the block's own KIND never stops the model (R49). -/
theorem exec_row_completes (c : Command) (s : State) : ∃ t, exec (c.row s.kind) s = .next t := by
  cases c with
  | idle => exact whenRunning_completes ..
  | reserved w => exact whenRunning_completes ..
  | predict pc => rw [exec_predict_row]; exact whenRunning_completes ..
  | train pc o => rw [exec_train_row]; exact whenRunning_completes ..

/-- Settles O34: the word decodes to a row of the block's own KIND, and every such row ends in a next state. -/
theorem stepCompletesOnEveryCommandWord : Obligations.StepCompletesOnEveryCommandWord := by
  intro s w rest hin hw
  obtain ⟨i, hd, hrow, -⟩ := decode_of_fits (k := s.kind) hw
  obtain ⟨t, ht⟩ : ∃ t, exec i { s with inputs := rest } = .next t := by
    rw [hrow]; exact exec_row_completes i.command { s with inputs := rest }
  obtain ⟨-, -, hinputs, -⟩ := exec_keeps ht
  obtain ⟨a, ha, -⟩ := exec_answer ht
  exact ⟨t, a, (step_command hin hd).trans ht, hinputs, ha⟩

/-! What a step keeps of the configuration (R9, R22, R97). -/

/-- Settles O36, along what a step can do: instructions keep the configuration, and the reset input builds the block again in it. -/
theorem onlyConstructionChangesTheConfiguration : Obligations.OnlyConstructionChangesTheConfiguration := by
  intro s t hstep hstring hcoded
  rcases step_next hstep with ⟨-, hx⟩ | ⟨w, rest, i, -, -, -, -, hx⟩ | ⟨rest, -, rfl⟩ |
    ⟨i, rest, k, n, hin, ⟨a, b, rfl⟩ | ⟨a, b, rfl⟩, -⟩
  · obtain ⟨hcfg, hkind, -⟩ := exec_keeps hx
    exact ⟨hcfg, hkind⟩
  · obtain ⟨hcfg, hkind, -⟩ := exec_keeps hx
    exact ⟨hcfg, hkind⟩
  · exact ⟨fresh_cfg .., fresh_kind ..⟩
  · exact absurd hin (hstring a b rest)
  · exact absurd hin (hcoded a b rest)

/-! Fresh states (R25, R106). -/

theorem fresh_isFresh (cfg : Cfg) (k : Kind) (draws : Nat) (inputs : List Input) :
    (State.fresh cfg k draws inputs).isFresh :=
  ⟨Config.lastUsedReset draws, by rw [fresh_kind]; rfl, rfl, rfl⟩

theorem inv_of_isFresh {s : State} (hpw : 12 ≤ s.cfg.pcWidth) (h : s.isFresh) : s.inv = true := by
  obtain ⟨draw, hp, hpair, hfault⟩ := h
  refine inv_iff.2 ⟨hpw, ?_, ?_, ?_⟩
  · rw [hp]; exact freshPredictor_ok ..
  · rw [hpair]; rfl
  · rw [hfault]; rfl

/-- With no PREDICT monitored there is no selection to have recorded (R78 a). -/
theorem selectionRecorded_of_pairPc_none {s : State} (h : s.pairPc = none) : s.selectionRecorded = true := by
  simp [State.selectionRecorded, h]

/-- Settles O41. -/
theorem freshStatesMeetTheInvariant : Obligations.FreshStatesMeetTheInvariant := by
  have hreset : State.reset.isFresh := fresh_isFresh ..
  refine ⟨fun s hpw hs => ⟨inv_of_isFresh hpw hs, ?_⟩, hreset, inv_of_isFresh (by decide) hreset⟩
  obtain ⟨-, -, hpair, -⟩ := hs
  exact selectionRecorded_of_pairPc_none hpair

/-! When a PREDICT or a TRAIN completes without a fault (R49, R52, R53, R86). -/

theorem raise_code_ne_zero (r : Raise) : r.code ≠ 0 := by
  cases r <;> simp [Raise.code]

theorem exec_predict_completes_iff {s t : State} {pc : Nat} (hf : s.fault = 0) :
    (exec ((Command.predict pc).row s.kind) s = .next t ∧ t.fault = 0) ↔
      ∃ q b, predictRule s.cfg pc s.predictor = .ok (q, b) ∧ t = s.predicted pc q b := by
  rw [exec_predict_row, whenRunning_of_noFault hf, Host.Outcome.next.injEq]
  constructor
  · rintro ⟨rfl, hok⟩
    cases hr : predictRule s.cfg pc s.predictor with
    | error r => rw [hr] at hok; exact absurd hok (raise_code_ne_zero r)
    | ok x => exact ⟨x.1, x.2, rfl, finishPredict_ok ..⟩
  · rintro ⟨q, b, hr, rfl⟩
    exact ⟨by rw [hr, finishPredict_ok], hf⟩

theorem exec_train_completes_iff {s t : State} {pc : Nat} {o : Bool} (hf : s.fault = 0) :
    (exec ((Command.train pc o).row s.kind) s = .next t ∧ t.fault = 0) ↔
      (s.cfg.strictPairing = true → s.pairPc = some pc) ∧
        ∃ q, trainRule s.cfg pc o s.predictor = .ok q ∧ t = s.trainedTo q := by
  rw [exec_train_row, whenRunning_of_noFault hf, Host.Outcome.next.injEq]
  constructor
  · rintro ⟨rfl, hok⟩
    rcases finishTrain_cases (s := s) (pc := pc) (trainRule s.cfg pc o s.predictor) with
      ⟨r, -, e⟩ | ⟨r, -, -, e⟩ | ⟨q, hc, hq, e⟩
    · rw [e] at hok; exact absurd hok (raise_code_ne_zero r)
    · rw [e] at hok; exact absurd hok (raise_code_ne_zero r)
    · exact ⟨pairCheck_ok_iff.1 hc, q, hq, e⟩
  · rintro ⟨hpair, q, hq, rfl⟩
    exact ⟨by rw [hq, finishTrain_ok hpair], hf⟩

/-! The pc bits that reach the predictor (R8). -/

/-- The pcs agree in the low max(W,7) bits, all that R8 lets reach a result. -/
def SameLowBits (n : Size) (pc pc' : Nat) : Prop := pc % 2 ^ (max n.width 7) = pc' % 2 ^ (max n.width 7)

section
variable {n : Size} {pc pc' : Nat}

theorem SameLowBits.mod_two_pow {k : Nat} (h : SameLowBits n pc pc') (hk : k ≤ max n.width 7) :
    pc % 2 ^ k = pc' % 2 ^ k :=
  Nat.ModEq.of_dvd (pow_dvd_pow 2 hk) h

theorem SameLowBits.localBucket_eq (h : SameLowBits n pc pc') : localBucket pc = localBucket pc' := by
  rw [Machine.localBucket_eq, Machine.localBucket_eq]
  exact h.mod_two_pow (k := 7) (le_max_right ..)

theorem SameLowBits.metaIndex_eq (h : SameLowBits n pc pc') : metaIndex n pc = metaIndex n pc' := by
  simpa only [Machine.metaIndex_eq, entries_eq] using h.mod_two_pow (le_max_left ..)

theorem SameLowBits.gshareIndex_eq (h : SameLowBits n pc pc') (g : GshareState) :
    gshareIndex n g pc = gshareIndex n g pc' :=
  congrArg (· ^^^ g.ghr) h.metaIndex_eq

theorem SameLowBits.localPred_eq (h : SameLowBits n pc pc') (l : LocalState) : localPred l pc = localPred l pc' := by
  simp only [localPred, localIndex, h.localBucket_eq]

theorem SameLowBits.gsharePred_eq (h : SameLowBits n pc pc') (g : GshareState) :
    gsharePred n g pc = gsharePred n g pc' := by
  simp only [gsharePred, h.gshareIndex_eq]

theorem SameLowBits.localTrain_eq (h : SameLowBits n pc pc') (l : LocalState) (o : Bool) :
    localTrain n l pc o = localTrain n l pc' o := by
  simp only [localTrain, localIndex, h.localBucket_eq]

theorem SameLowBits.gshareTrain_eq (h : SameLowBits n pc pc') (g : GshareState) (o : Bool) :
    gshareTrain n g pc o = gshareTrain n g pc' o := by
  simp only [gshareTrain, h.gshareIndex_eq]

end

section
variable {cfg : Cfg} {pc pc' : Nat}

theorem SameLowBits.predictRule_eq (h : SameLowBits cfg.size pc pc') (p : Predictor) :
    predictRule cfg pc p = predictRule cfg pc' p := by
  cases p with
  | alwaysTaken => rfl
  | ofLocal l => simp only [predictRule, h.localPred_eq]
  | ofGshare g => simp only [predictRule, h.gsharePred_eq]
  | ofTournament t =>
    simp only [predictRule, tournamentPredict, selectedPred, h.metaIndex_eq, h.localPred_eq, h.gsharePred_eq]

theorem SameLowBits.trainRule_eq (h : SameLowBits cfg.size pc pc') (o : Bool) (p : Predictor) :
    trainRule cfg pc o p = trainRule cfg pc' o p := by
  cases p with
  | alwaysTaken => rfl
  | ofLocal l => simp only [trainRule, h.localTrain_eq]
  | ofGshare g => simp only [trainRule, h.gshareTrain_eq]
  | ofTournament t =>
    simp only [trainRule, tournamentTrain, h.localPred_eq, h.gsharePred_eq, h.localTrain_eq, h.gshareTrain_eq,
      h.metaIndex_eq]

end

/-- Settles O42: the pc enters a kind rule only through its indices, which are the same for both pcs, and enters the rest of a completed command only as the monitored pc. -/
theorem onlyLowPcBitsReachThePredictor : Obligations.OnlyLowPcBitsReachThePredictor := by
  intro s pc pc' o hpc hf
  have hlow : SameLowBits s.cfg.size pc pc' := hpc
  constructor
  · intro t ht hok
    obtain ⟨q, b, hr, rfl⟩ := (exec_predict_completes_iff hf).1 ⟨ht, hok⟩
    rw [hlow.predictRule_eq] at hr
    exact ((exec_predict_completes_iff hf).2 ⟨q, b, hr, rfl⟩).1
  · intro t ht hok
    obtain ⟨-, q, hr, rfl⟩ := (exec_train_completes_iff (s := { s with pairPc := some pc }) hf).1 ⟨ht, hok⟩
    rw [hlow.trainRule_eq] at hr
    exact ((exec_train_completes_iff (s := { s with pairPc := some pc' }) hf).2 ⟨fun _ => rfl, q, hr, rfl⟩).1

end Sys2Proof.Machine
end

section
/-! SUPPORT. The statements of 10_state.md: every step keeps the invariant, the draw LASTUSED_RESET is never observed, what the monitor holds, the reset input, and what a fresh block predicts. -/

namespace Sys2Proof.Machine

/-! The invariant and each end of a command (R14 to R27). -/

theorem checkRow_isNone_iff {pw pc : Nat} {kind k : Kind} :
    (checkRow pw kind k pc).isNone = true ↔ k = kind ∧ pcFits pw pc = true := by
  unfold checkRow
  split_ifs <;> simp_all

/-- The operands of a command fit a block of PC_WIDTH `pw` (R38, R39, R41). -/
def CommandFits (pw : Nat) : Command → Prop
  | .idle => True
  | .predict pc => pcFits pw pc = true
  | .train pc _ => pcFits pw pc = true
  | .reserved w => w % 4 = 3 ∧ wordFits pw w = true

theorem commandFits_of_wellFormed {pw : Nat} {k : Kind} {i : Instr} (h : i.wellFormed pw k = true) :
    CommandFits pw i.command := by
  cases i with
  | idle => trivial
  | reserved w =>
    simp only [Instr.wellFormed, Instr.check] at h
    split_ifs at h with hop hw
    · simp at h
    · exact ⟨not_not.1 hop, hw⟩
    · simp at h
  | _ => exact (checkRow_isNone_iff.1 h).2

theorem faultOk_code (r : Raise) : faultOk r.code = true := by
  cases r <;> rfl

section
variable {s : State} (h : s.inv = true)
include h

theorem raise_inv (r : Raise) : (s.raise r).inv = true := by
  obtain ⟨hpw, hp, hpair, -⟩ := inv_iff.1 h
  exact inv_iff.2 ⟨hpw, hp, hpair, faultOk_code r⟩

theorem predicted_inv {pc : Nat} {q : Predictor} (b : Bool) (hpc : pcFits s.cfg.pcWidth pc = true)
    (hq : q.ok s.cfg.size = true) : (s.predicted pc q b).inv = true := by
  obtain ⟨hpw, -, -, hf⟩ := inv_iff.1 h
  exact inv_iff.2 ⟨hpw, hq, hpc, hf⟩

theorem trainedTo_inv {q : Predictor} (hq : q.ok s.cfg.size = true) : (s.trainedTo q).inv = true := by
  obtain ⟨hpw, -, -, hf⟩ := inv_iff.1 h
  exact inv_iff.2 ⟨hpw, hq, rfl, hf⟩

theorem finishPredict_inv {pc : Nat} (hpc : pcFits s.cfg.pcWidth pc = true) :
    (s.finishPredict pc (predictRule s.cfg pc s.predictor)).inv = true := by
  obtain ⟨-, hp, -, -⟩ := inv_iff.1 h
  cases hr : predictRule s.cfg pc s.predictor with
  | error r => exact raise_inv h r
  | ok x => exact predicted_inv h x.2 hpc (predictRule_keeps_ok hp hr)

theorem finishTrain_inv (pc : Nat) (o : Bool) :
    (s.finishTrain pc (trainRule s.cfg pc o s.predictor)).inv = true := by
  obtain ⟨-, hp, -, -⟩ := inv_iff.1 h
  rcases finishTrain_cases (s := s) (pc := pc) (trainRule s.cfg pc o s.predictor) with
    ⟨r, -, e⟩ | ⟨r, -, -, e⟩ | ⟨q, -, hq, e⟩ <;> rw [e]
  · exact raise_inv h r
  · exact raise_inv h r
  · exact trainedTo_inv h (trainRule_keeps_ok hp hq).1

end

theorem exec_keeps_inv {i : Instr} {s t : State} (hwf : i.wellFormed s.cfg.pcWidth s.kind = true)
    (hs : s.inv = true) (h : exec i s = .next t) : t.inv = true := by
  rcases exec_next h with ⟨-, rfl⟩ | ⟨-, -, rfl⟩ | ⟨-, w, -, rfl⟩ | ⟨-, pc, hc, rfl⟩ | ⟨-, pc, o, -, rfl⟩
  · exact hs
  · exact hs
  · exact raise_inv hs _
  · exact finishPredict_inv hs (by simpa [CommandFits, hc] using commandFits_of_wellFormed hwf)
  · exact finishTrain_inv hs pc o

/-- Settles O46, along what a step can do: an instruction keeps the invariant, and a reset or a construction answers a fresh block. -/
theorem stepKeepsTheInvariant : Obligations.StepKeepsTheInvariant := by
  intro s t hs hstep
  obtain ⟨hpw, -⟩ := inv_iff.1 hs
  rcases step_next hstep with ⟨-, hx⟩ | ⟨w, rest, i, -, -, -, hwf, hx⟩ | ⟨rest, -, rfl⟩ | ⟨i, rest, k, n, -, -, rfl⟩
  · exact exec_keeps_inv rfl hs hx
  · exact exec_keeps_inv (s := { s with inputs := rest }) hwf hs hx
  · exact inv_of_isFresh hpw (fresh_isFresh ..)
  · exact inv_of_isFresh hpw (fresh_isFresh ..)

/-! What a command's row does on a block that is not faulted (R49), and how a run is made of steps (R105). -/

/-- The state after a command on a block that is not faulted (R49). -/
def State.after (s : State) : Command → State
  | .idle => s.answerNone
  | .predict pc => s.finishPredict pc (predictRule s.cfg pc s.predictor)
  | .train pc o => s.finishTrain pc (trainRule s.cfg pc o s.predictor)
  | .reserved w => s.raise (.reservedCommand w)

theorem exec_row_of_noFault {s : State} (hf : s.fault = 0) (c : Command) :
    exec (c.row s.kind) s = .next (s.after c) := by
  cases c with
  | idle => exact whenRunning_of_noFault hf
  | reserved w => exact whenRunning_of_noFault hf
  | predict pc => exact (exec_predict_row pc s).trans (whenRunning_of_noFault hf)
  | train pc o => exact (exec_train_row pc o s).trans (whenRunning_of_noFault hf)

theorem observe_succ_iff {k : Nat} {s u : State} {as : List (Option Answer)} :
    observe (k + 1) s = some (as, u) ↔
      ∃ t rest, step s = .next t ∧ observe k t = some (rest, u) ∧ as = t.answer :: rest := by
  simp only [observe]
  cases step s with
  | next t =>
    cases ho : observe k t with
    | none => simp [ho]
    | some x =>
      obtain ⟨rest, v⟩ := x
      simp [ho, and_comm, eq_comm (a := as)]
  | fault r => simp
  | refused r => simp

/-! Agreement but for the draw (R25, R52, R73): what it says, and each end of a command keeps it. -/

/-- Agreeing predictors are equal, or they are tournaments that differ in `lastUsed` only while no PREDICT is monitored. -/
theorem Predictor.agree_iff {paired : Bool} {p q : Predictor} :
    Predictor.agree paired p q ↔ p = q ∨
      (paired = false ∧ ∃ t lu, p = .ofTournament t ∧ q = .ofTournament { t with lastUsed := lu }) := by
  constructor
  · intro h
    unfold Predictor.agree at h
    split at h
    · next t u =>
      obtain ⟨hL, hG, hm, hlu⟩ := h
      cases paired with
      | true => exact .inl (by cases t; cases u; simp_all)
      | false => exact .inr ⟨rfl, t, u.lastUsed, rfl, by cases t; cases u; simp_all⟩
    · exact .inl h
  · rintro (rfl | ⟨rfl, t, lu, rfl, rfl⟩)
    · cases p <;> simp [Predictor.agree]
    · simp [Predictor.agree]

theorem Predictor.agree_refl (paired : Bool) (p : Predictor) : Predictor.agree paired p p :=
  Predictor.agree_iff.2 (.inl rfl)

theorem Predictor.agree_freshPredictor (k : Kind) (n : Size) (d e : Selector) :
    Predictor.agree false (freshPredictor k n d) (freshPredictor k n e) := by
  cases k <;> simp [freshPredictor, Predictor.agree]

section
variable {paired : Bool} {p q : Predictor} (h : Predictor.agree paired p q)
include h

theorem Predictor.agree.kind_eq : p.kind = q.kind := by
  rcases Predictor.agree_iff.1 h with rfl | ⟨-, t, lu, rfl, rfl⟩ <;> rfl

theorem Predictor.agree.eq_of_paired (hp : paired = true) : p = q := by
  rcases Predictor.agree_iff.1 h with e | ⟨hf, -⟩
  · exact e
  · simp [hp] at hf

/-- A PREDICT overwrites `lastUsed` before it reads it, so it does not see on which selector the predictors differ (R73). -/
theorem Predictor.agree.predictRule_eq (cfg : Cfg) (pc : Nat) : predictRule cfg pc p = predictRule cfg pc q := by
  rcases Predictor.agree_iff.1 h with rfl | ⟨-, t, lu, rfl, rfl⟩ <;> rfl

end

/-- The second of two agreeing states is the first with another draw counter and an agreeing predictor. -/
theorem State.agree_iff {s u : State} :
    s.agree u ↔ ∃ p d, Predictor.agree s.pairPc.isSome s.predictor p ∧ u = { s with predictor := p, draws := d } := by
  constructor
  · rintro ⟨hcfg, hpair, hfault, hans, hin, hp⟩
    exact ⟨u.predictor, u.draws, hp, by cases u; simp_all⟩
  · rintro ⟨p, d, hp, rfl⟩
    exact ⟨rfl, rfl, rfl, rfl, rfl, hp⟩

theorem agree_fresh (cfg : Cfg) (k : Kind) (d e : Nat) (ins : List Input) :
    (State.fresh cfg k d ins).agree (State.fresh cfg k e ins) :=
  ⟨rfl, rfl, rfl, rfl, rfl, Predictor.agree_freshPredictor ..⟩

section
variable {s u : State} (h : s.agree u)
include h

theorem State.agree.cfg_eq : s.cfg = u.cfg := by
  obtain ⟨p, d, -, rfl⟩ := State.agree_iff.1 h
  rfl

theorem State.agree.fault_eq : s.fault = u.fault := by
  obtain ⟨p, d, -, rfl⟩ := State.agree_iff.1 h
  rfl

theorem State.agree.answer_eq : s.answer = u.answer := by
  obtain ⟨p, d, -, rfl⟩ := State.agree_iff.1 h
  rfl

theorem State.agree.kind_eq : s.kind = u.kind := by
  obtain ⟨p, d, hp, rfl⟩ := State.agree_iff.1 h
  exact hp.kind_eq

theorem State.agree.raise (r : Raise) : (s.raise r).agree (u.raise r) := by
  obtain ⟨p, d, hp, rfl⟩ := State.agree_iff.1 h
  exact ⟨rfl, rfl, rfl, rfl, rfl, hp⟩

theorem State.agree.answerNone : s.answerNone.agree u.answerNone := by
  obtain ⟨p, d, hp, rfl⟩ := State.agree_iff.1 h
  exact ⟨rfl, rfl, rfl, rfl, rfl, hp⟩

theorem State.agree.answerFaulted : s.answerFaulted.agree u.answerFaulted := by
  obtain ⟨p, d, hp, rfl⟩ := State.agree_iff.1 h
  exact ⟨rfl, rfl, rfl, rfl, rfl, hp⟩

theorem State.agree.finishPredict (pc : Nat) :
    (s.finishPredict pc (predictRule s.cfg pc s.predictor)).agree
      (u.finishPredict pc (predictRule u.cfg pc u.predictor)) := by
  have hraise := h.raise
  obtain ⟨p, d, hp, rfl⟩ := State.agree_iff.1 h
  rw [← hp.predictRule_eq]
  cases predictRule s.cfg pc s.predictor with
  | error r => exact hraise r
  | ok x => exact ⟨rfl, rfl, rfl, rfl, rfl, Predictor.agree_refl ..⟩

/-- A TRAIN that passes the strict pairing check finds a PREDICT monitored, so it runs on equal predictors (R52). -/
theorem State.agree.finishTrain (hstrict : s.cfg.strictPairing = true) (pc : Nat) (o : Bool) :
    (s.finishTrain pc (trainRule s.cfg pc o s.predictor)).agree
      (u.finishTrain pc (trainRule u.cfg pc o u.predictor)) := by
  have hraise := h.raise
  obtain ⟨p, d, hp, rfl⟩ := State.agree_iff.1 h
  have hcheck : ({ s with predictor := p, draws := d } : State).pairCheck pc = s.pairCheck pc := rfl
  cases hc : s.pairCheck pc with
  | error r => simpa only [State.finishTrain, hcheck, hc] using hraise r
  | ok _ =>
    have hpair : s.pairPc = some pc := pairCheck_ok_iff.1 hc hstrict
    obtain rfl : s.predictor = p := hp.eq_of_paired (by rw [hpair]; rfl)
    cases trainRule s.cfg pc o s.predictor with
    | error r => simpa only [State.finishTrain, hcheck, hc] using hraise r
    | ok q =>
      simp only [State.finishTrain, hcheck, hc]
      exact ⟨rfl, rfl, rfl, rfl, rfl, Predictor.agree_refl ..⟩

theorem State.agree.after (hstrict : s.cfg.strictPairing = true) (c : Command) : (s.after c).agree (u.after c) := by
  cases c with
  | idle => exact h.answerNone
  | predict pc => exact h.finishPredict pc
  | train pc o => exact h.finishTrain hstrict pc o
  | reserved w => exact h.raise _

theorem State.agree.exec (hstrict : s.cfg.strictPairing = true) {i : Instr} {t : State}
    (hx : exec i s = .next t) : ∃ t', exec i u = .next t' ∧ t.agree t' := by
  have hfault : u.fault = s.fault := h.fault_eq.symm
  by_cases hf : s.fault = 0
  · have hrow := row_of_next hf hx
    generalize i.command = c at hrow
    subst hrow
    rw [exec_row_of_noFault hf] at hx
    cases hx
    exact ⟨_, h.kind_eq ▸ exec_row_of_noFault (hfault.trans hf) c, h.after hstrict c⟩
  · rw [exec_faulted i hf] at hx
    cases hx
    exact ⟨_, exec_faulted i (hfault ▸ hf), h.answerFaulted⟩

theorem State.agree.constructed {c : Except Fault (Kind × Size)} {t : State} (hc : s.constructed c = .next t) :
    ∃ t', u.constructed c = .next t' ∧ t.agree t' := by
  obtain ⟨p, d, -, rfl⟩ := State.agree_iff.1 h
  cases c with
  | error f => simp [State.constructed] at hc
  | ok x =>
    cases hc
    exact ⟨_, rfl, agree_fresh ..⟩

theorem State.agree.resetInput : s.resetInput.agree u.resetInput := by
  have hkind := h.kind_eq
  obtain ⟨p, d, -, rfl⟩ := State.agree_iff.1 h
  rw [resetInput_eq, resetInput_eq, ← hkind]
  exact agree_fresh ..

theorem State.agree.handle (hstrict : s.cfg.strictPairing = true) {i : Input} {t : State}
    (hx : handle i s = .next t) : ∃ t', handle i u = .next t' ∧ t.agree t' := by
  cases i with
  | command w =>
    have hd : decode u.cfg.pcWidth u.kind w = decode s.cfg.pcWidth s.kind w := by rw [h.cfg_eq, h.kind_eq]
    simp only [Machine.handle, hd] at hx ⊢
    split at hx
    · exact h.exec hstrict hx
    · simp at hx
  | reset =>
    cases hx
    exact ⟨_, rfl, h.resetInput⟩
  | construct kind n => exact h.constructed hx
  | constructCoded kind size => exact h.constructed hx

theorem State.agree.takeInput : u.takeInput.1 = s.takeInput.1 ∧ s.takeInput.2.agree u.takeInput.2 := by
  obtain ⟨p, d, hp, rfl⟩ := State.agree_iff.1 h
  constructor
  · cases hin : s.inputs <;> simp [State.takeInput, hin]
  · rw [takeInput_state, takeInput_state]
    exact ⟨rfl, rfl, rfl, rfl, rfl, hp⟩

theorem State.agree.step (hstrict : s.cfg.strictPairing = true) {t : State} (hx : step s = .next t) :
    ∃ t', step u = .next t' ∧ t.agree t' := by
  obtain ⟨hinput, hstate⟩ := h.takeInput
  rw [Machine.step, hinput]
  exact hstate.handle (by rw [takeInput_state]; exact hstrict) hx

end

theorem step_strictPairing {s t : State} (hx : step s = .next t) : t.cfg.strictPairing = s.cfg.strictPairing := by
  rcases step_next hx with ⟨-, hx⟩ | ⟨w, rest, i, -, -, -, -, hx⟩ | ⟨rest, -, rfl⟩ | ⟨i, rest, k, n, -, -, rfl⟩
  · rw [(exec_keeps hx).1]
  · rw [(exec_keeps hx).1]
  · rfl
  · rfl

/-- Settles O49, by induction on the number of steps: each step answers the same and keeps the agreement. -/
theorem lastUsedDrawIsNeverObserved : Obligations.LastUsedDrawIsNeverObserved := by
  intro k
  induction k with
  | zero =>
    intro s u s' as h _ ho
    cases ho
    exact ⟨u, rfl, h⟩
  | succ k ih =>
    intro s u s' as h hstrict ho
    obtain ⟨t, rest, ht, hrest, rfl⟩ := observe_succ_iff.1 ho
    obtain ⟨t', ht', htt'⟩ := h.step hstrict ht
    obtain ⟨u', ho', hu'⟩ := ih t t' s' rest htt' ((step_strictPairing ht).trans hstrict) hrest
    exact ⟨u', observe_succ_iff.2 ⟨t', rest, ht', ho', by rw [htt'.answer_eq]⟩, hu'⟩

/-! The word of a command decodes to its row (R38, R39, R47). -/

theorem decodeCommand_packWord {pw pc op : Nat} (o : Bool) (hop : op < 4) (hpc : pcFits pw pc = true) :
    decodeCommand pw (packWord pc o op) =
      .ok (if op = 0 then .idle else if op = 1 then .predict pc else if op = 2 then .train pc o
        else .reserved (packWord pc o op)) := by
  have ho : o.toNat ≤ 1 := by cases o <;> decide
  have hw := packWord_eq pc o hop
  have hdiv : packWord pc o op / 8 = pc := by omega
  have hmod : packWord pc o op % 4 = op := by omega
  have hfits : packWord pc o op < 2 ^ (pw + 3) := div_fits_iff.1 (by rw [hdiv]; exact pcFits_iff.1 hpc)
  have hout : wordOutcome (packWord pc o op) = o := by
    rw [wordOutcome, bits, Nat.shiftRight_eq_div_pow, show packWord pc o op / 2 ^ 2 % 2 ^ (2 + 1 - 2) = o.toNat by omega]
    cases o <;> rfl
  rw [decodeCommand, if_pos (wordFits_iff.2 hfits), op_eq, hmod, pc_of_fits hfits, hdiv, hout]

theorem decodeCommand_encode {pw : Nat} {c : Command} (h : CommandFits pw c) :
    decodeCommand pw c.encode = .ok c := by
  cases c with
  | idle => exact decodeCommand_packWord false (by decide) (pcFits_iff.2 (by positivity))
  | predict pc => exact decodeCommand_packWord false (by decide) h
  | train pc o => exact decodeCommand_packWord o (by decide) h
  | reserved w =>
    obtain ⟨hop, hw⟩ := h
    simp [decodeCommand, Command.encode, hw, op_eq, hop]

@[simp] theorem row_command (c : Command) (k : Kind) : (c.row k).command = c := by
  cases c <;> cases k <;> rfl

theorem decode_encode_row {pw : Nat} {k : Kind} {c : Command} (h : (c.row k).wellFormed pw k = true) :
    decode pw k c.encode = .ok (c.row k) := by
  have hc : CommandFits pw c := by simpa using commandFits_of_wellFormed h
  rw [decode, decodeCommand_encode hc]

theorem step_command_row {s : State} {c : Command} {rest : List Input} (hf : s.fault = 0)
    (hin : s.inputs = .command c.encode :: rest) (hwf : (c.row s.kind).wellFormed s.cfg.pcWidth s.kind = true) :
    step s = .next (({ s with inputs := rest } : State).after c) :=
  (step_command hin (decode_encode_row hwf)).trans (exec_row_of_noFault (s := { s with inputs := rest }) hf c)

/-! The pairing monitor along a run (R26, R52, R53). -/

theorem monitored_after {s : State} {c : Command} (cs : List Command) (h : (s.after c).fault = 0) :
    monitored (s.after c).pairPc cs = monitored s.pairPc (c :: cs) := by
  have noRaise : ∀ r, s.after c ≠ s.raise r := fun r e => raise_code_ne_zero r (by simpa [e] using h)
  cases c with
  | idle => rfl
  | reserved w => exact absurd rfl (noRaise _)
  | predict pc =>
    cases hr : predictRule s.cfg pc s.predictor with
    | error r => exact absurd (by rw [State.after, hr, finishPredict_error]) (noRaise r)
    | ok x => rw [State.after, hr, finishPredict_ok]; rfl
  | train pc o =>
    rcases finishTrain_cases (s := s) (pc := pc) (trainRule s.cfg pc o s.predictor) with
      ⟨r, -, e⟩ | ⟨r, -, -, e⟩ | ⟨q, -, -, e⟩
    · exact absurd e (noRaise r)
    · exact absurd e (noRaise r)
    · rw [State.after, e]; rfl

/-- A run of commands that ends without a fault held none before, so each command wrote the monitor. -/
theorem observe_commands_pairPc {u : State} (cs : List Command) : ∀ (s : State) (as : List (Option Answer)),
    (∀ c ∈ cs, (c.row s.kind).wellFormed s.cfg.pcWidth s.kind = true) →
    s.inputs = cs.map (fun c => .command c.encode) → observe cs.length s = some (as, u) → u.fault = 0 →
    s.fault = 0 ∧ u.pairPc = monitored s.pairPc cs := by
  induction cs with
  | nil =>
    intro s as _ _ ho hu
    cases ho
    exact ⟨hu, rfl⟩
  | cons c cs ih =>
    intro s as hwf hin ho hu
    obtain ⟨t, rest, ht, hrest, -⟩ := observe_succ_iff.1 ho
    obtain ⟨hwfc, hwfcs⟩ := List.forall_mem_cons.1 hwf
    obtain ⟨hcfg, hkind, hinputs, hfault⟩ := exec_keeps ((step_command hin (decode_encode_row hwfc)).symm.trans ht)
    obtain ⟨htf, hpair⟩ := ih t rest (by rw [hcfg, hkind]; exact hwfcs) hinputs hrest hu
    have hsf : s.fault = 0 := by
      by_contra hsf
      exact hsf ((hfault hsf).symm.trans htf)
    cases (step_command_row hsf hin hwfc).symm.trans ht
    exact ⟨hsf, hpair.trans (monitored_after cs htf)⟩

/-- Settles O31: along the run each command writes the monitor as R26 says. -/
theorem pairMonitorHoldsTheLastPredict : Obligations.PairMonitorHoldsTheLastPredict := by
  intro s u cs as hwf hin ho hu
  exact (observe_commands_pairPc cs s as hwf hin ho hu).2

/-! Fresh blocks and the reset input (R25, R97, R106). -/

theorem freshTable_entry {n : Size} {i : Nat} {c : Counter} (h : (freshTable n)[i]? = some c) : taken c = true := by
  obtain rfl : c = weaklyTaken := List.eq_of_mem_replicate (List.mem_of_getElem? h)
  rfl

theorem localPred_fresh (n : Size) (pc : Nat) : localPred (freshLocal n) pc = .ok true := by
  obtain ⟨h, c, hh, hc, -⟩ := local_entries (freshPredictor_ok .localKind n .useLocal) pc
  exact localPred_ok_iff.2 ⟨h, c, hh, hc, freshTable_entry hc⟩

theorem gsharePred_fresh (n : Size) (pc : Nat) : gsharePred n (freshGshare n) pc = .ok true := by
  obtain ⟨c, hc⟩ := gshare_entry (freshPredictor_ok .gshare n .useLocal) pc
  exact gsharePred_ok_iff.2 ⟨c, hc, freshTable_entry hc⟩

/-- Whichever sub-predictor the meta-counter selects, it predicts taken. -/
theorem selectedPred_fresh (n : Size) (pc : Nat) {t : TournamentState} (hL : t.L = freshLocal n)
    (hG : t.G = freshGshare n) : selectedPred n t pc = .ok true := by
  unfold selectedPred
  split
  · rw [hG, gsharePred_fresh]
  · rw [hL, localPred_fresh]

theorem predictRule_fresh (cfg : Cfg) (pc : Nat) (k : Kind) (draw : Selector) :
    ∃ q, predictRule cfg pc (freshPredictor k cfg.size draw) = .ok (q, true) := by
  cases k with
  | alwaysTaken => exact ⟨_, rfl⟩
  | localKind => exact ⟨_, map_ok_iff.2 ⟨true, localPred_fresh .., rfl⟩⟩
  | gshare => exact ⟨_, map_ok_iff.2 ⟨true, gsharePred_fresh .., rfl⟩⟩
  | tournament =>
    obtain ⟨⟨t, b⟩, ht⟩ := tournamentPredict_of_ok (freshPredictor_ok .tournament cfg.size draw) pc
    obtain ⟨c, -, rfl, hb⟩ := tournamentPredict_ok_iff.1 ht
    obtain rfl : true = b := Except.ok.inj ((selectedPred_fresh cfg.size pc rfl rfl).symm.trans hb)
    exact ⟨_, map_ok_iff.2 ⟨_, ht, rfl⟩⟩

/-- Settles O40: every counter of a fresh table is weakly taken, whichever the kind rule reads. -/
theorem freshBlocksPredictTaken : Obligations.FreshBlocksPredictTaken := by
  rintro s pc ⟨draw, hp, -, hf⟩
  obtain ⟨q, hq⟩ := predictRule_fresh s.cfg pc s.kind draw
  rw [← hp] at hq
  obtain ⟨ht, htf⟩ := (exec_predict_completes_iff hf).2 ⟨q, true, hq, rfl⟩
  exact ⟨_, ht, rfl, htf⟩

theorem step_reset {s : State} {rest : List Input} (hin : s.inputs = .reset :: rest) :
    step s = .next (State.fresh s.cfg s.kind s.draws rest) := by
  simp only [step, takeInput_cons hin, handle]
  rfl

/-- Settles O37: the reset input answers the fresh block of the state's own KIND and N. -/
theorem resetInputSetsConstructionValues : Obligations.ResetInputSetsConstructionValues := by
  intro s rest hin
  refine ⟨_, step_reset hin, rfl, fresh_kind .., rfl, rfl, rfl, rfl, ?_⟩
  rw [fresh_predictor]
  cases s.kind with
  | alwaysTaken => trivial
  | localKind => exact ⟨rfl, rfl⟩
  | gshare => exact ⟨rfl, rfl⟩
  | tournament => exact ⟨rfl, rfl, rfl, rfl, rfl, rfl⟩

end Sys2Proof.Machine
end

section
/-! SUPPORT. The statements of 20_memory.md: what a PREDICT and a TRAIN leave unwritten (R34), and that no step takes INDEX_OUT_OF_RANGE (R31). -/

namespace Sys2Proof.Machine

/-! A PREDICT writes only the selector, and repeats (R34, R53, R73). -/

theorem predictRule_withoutSelector {cfg : Cfg} {pc : Nat} {p q : Predictor} {b : Bool}
    (h : predictRule cfg pc p = .ok (q, b)) : Claims.withoutSelector q = Claims.withoutSelector p := by
  rcases predictRule_ok h with ⟨rfl, -⟩ | ⟨t, c, rfl, -, rfl, -⟩ <;> rfl

theorem predictRule_idempotent {cfg : Cfg} {pc : Nat} {p q : Predictor} {b : Bool}
    (h : predictRule cfg pc p = .ok (q, b)) : predictRule cfg pc q = .ok (q, b) := by
  rcases predictRule_ok h with ⟨rfl, -⟩ | ⟨t, c, rfl, hc, rfl, hs⟩
  · exact h
  · exact map_ok_iff.2 ⟨({ t with lastUsed := sel c }, b), tournamentPredict_ok_iff.2 ⟨c, hc, rfl, hs⟩, rfl⟩

/-- Settles O24: the selector a PREDICT records is the one its repetition finds, and the monitor already holds its pc. -/
theorem predictIsIdempotentAndWritesOnlyTheSelector : Obligations.PredictIsIdempotentAndWritesOnlyTheSelector := by
  intro i pc s t hi hf ht htf
  have hrow : i = (Command.predict pc).row s.kind := hi ▸ row_of_next hf ht
  obtain ⟨-, hkind, -, -⟩ := exec_keeps ht
  obtain ⟨q, b, hq, rfl⟩ := (exec_predict_completes_iff hf).1 ⟨hrow ▸ ht, htf⟩
  refine ⟨rfl, rfl, rfl, rfl, predictRule_withoutSelector hq, ?_⟩
  rw [hrow, ← hkind]
  exact ((exec_predict_completes_iff htf).2 ⟨q, b, predictRule_idempotent hq, rfl⟩).1

/-! A TRAIN writes only the entries at the indices its rule forms (R34, R62, R66, R70, R75, R77). -/

/-- Every counter but the one at the bucket's history and every other bucket's history read as before. -/
def LocalState.sameElsewhere (pc : Nat) (l l' : LocalState) : Prop :=
  (∀ j, localIndex l pc ≠ .ok j → l'.pht[j]? = l.pht[j]?) ∧
  (∀ b, b ≠ localBucket pc → l'.hist[b]? = l.hist[b]?)

/-- Every counter but the one at the XOR index reads as before. -/
def GshareState.sameElsewhere (n : Size) (pc : Nat) (g g' : GshareState) : Prop :=
  ∀ j, j ≠ gshareIndex n g pc → g'.pht[j]? = g.pht[j]?

/-- Both sub-predictors are the same elsewhere, every meta-counter but the one at the meta index reads as before, and so does the selector. -/
def TournamentState.sameElsewhere (n : Size) (pc : Nat) (u u' : TournamentState) : Prop :=
  u.L.sameElsewhere pc u'.L ∧ u.G.sameElsewhere n pc u'.G ∧
  (∀ j, j ≠ metaIndex n pc → u'.metaTable[j]? = u.metaTable[j]?) ∧ u'.lastUsed = u.lastUsed

/-- The frame of a TRAIN of `pc` on a predictor of any kind. -/
def Predictor.sameElsewhere (n : Size) (pc : Nat) : Predictor → Predictor → Prop
  | .ofLocal l, .ofLocal l' => l.sameElsewhere pc l'
  | .ofGshare g, .ofGshare g' => g.sameElsewhere n pc g'
  | .ofTournament u, .ofTournament u' => u.sameElsewhere n pc u'
  | p, q => p = q

section
variable {n : Size} {pc : Nat} {o : Bool}

theorem Predictor.sameElsewhere_refl (p : Predictor) : p.sameElsewhere n pc p := by
  cases p with
  | alwaysTaken => rfl
  | ofLocal l => exact ⟨fun _ _ => rfl, fun _ _ => rfl⟩
  | ofGshare g => exact fun _ _ => rfl
  | ofTournament u => exact ⟨⟨fun _ _ => rfl, fun _ _ => rfl⟩, fun _ _ => rfl, fun _ _ => rfl, rfl⟩

theorem localTrain_sameElsewhere {l l' : LocalState} (h : localTrain n l pc o = .ok l') : l.sameElsewhere pc l' := by
  obtain ⟨i, c, hi, -, rfl⟩ := localTrain_ok_iff.1 h
  refine ⟨fun j hj => tblWrite_read_other ?_, fun b hb => tblWrite_read_other hb⟩
  rintro rfl
  exact hj (tblRead_ok_iff.2 hi)

theorem gshareTrain_sameElsewhere {g g' : GshareState} (h : gshareTrain n g pc o = .ok g') :
    g.sameElsewhere n pc g' := by
  obtain ⟨c, -, rfl⟩ := gshareTrain_ok_iff.1 h
  exact fun j hj => tblWrite_read_other hj

theorem tournamentTrain_sameElsewhere {cfg : Cfg} {u u' : TournamentState} (h : tournamentTrain cfg u pc o = .ok u') :
    u.sameElsewhere cfg.size pc u' := by
  obtain ⟨pl, pg, l, g, m, -, -, hl, hg, hm, rfl⟩ := tournamentTrain_ok_iff.1 h
  exact ⟨localTrain_sameElsewhere hl, gshareTrain_sameElsewhere hg, (metaApply_ok hm).2, rfl⟩

theorem trainRule_sameElsewhere {cfg : Cfg} {p q : Predictor} (h : trainRule cfg pc o p = .ok q) :
    p.sameElsewhere cfg.size pc q := by
  cases p with
  | alwaysTaken => exact Except.ok.inj h
  | ofLocal l => obtain ⟨l', hl, rfl⟩ := map_ok_iff.1 h; exact localTrain_sameElsewhere hl
  | ofGshare g => obtain ⟨g', hg, rfl⟩ := map_ok_iff.1 h; exact gshareTrain_sameElsewhere hg
  | ofTournament u => obtain ⟨u', hu, rfl⟩ := map_ok_iff.1 h; exact tournamentTrain_sameElsewhere hu

end

/-- A TRAIN makes no draw, and leaves the predictor as it was (a fault) or as its kind rule gave it. -/
theorem exec_train_predictor {i : Instr} {pc : Nat} {o : Bool} {s t : State} (hi : i.command = .train pc o)
    (h : exec i s = .next t) :
    t.draws = s.draws ∧ (t.predictor = s.predictor ∨ trainRule s.cfg pc o s.predictor = .ok t.predictor) := by
  by_cases hf : s.fault = 0
  · rw [row_of_next hf h, hi, exec_train_row, whenRunning_of_noFault hf, Host.Outcome.next.injEq] at h
    subst h
    rcases finishTrain_cases (s := s) (pc := pc) (trainRule s.cfg pc o s.predictor) with
      ⟨r, -, e⟩ | ⟨r, -, -, e⟩ | ⟨q, -, hq, e⟩ <;> rw [e]
    · exact ⟨rfl, .inl rfl⟩
    · exact ⟨rfl, .inl rfl⟩
    · exact ⟨rfl, .inr hq⟩
  · rw [exec_faulted i hf, Host.Outcome.next.injEq] at h
    subst h
    exact ⟨rfl, .inl rfl⟩

/-- Settles O25: the predictor after a TRAIN is the one before it, or the kind rule's, and either is the same outside the entries the rule names. -/
theorem trainWritesOnlyTheEntriesItsRuleNames : Obligations.TrainWritesOnlyTheEntriesItsRuleNames := by
  intro i pc o s t hi ht
  obtain ⟨hcfg, hkind, hinputs, -⟩ := exec_keeps ht
  obtain ⟨hdraws, hpred⟩ := exec_train_predictor hi ht
  have hframe : s.predictor.sameElsewhere s.cfg.size pc t.predictor := by
    rcases hpred with hsame | hrule
    · rw [hsame]; exact Predictor.sameElsewhere_refl _
    · exact trainRule_sameElsewhere hrule
  refine ⟨hcfg, hkind, hdraws, hinputs, ?_, ?_, ?_⟩
  · intro l l' hs ht'
    rw [hs, ht'] at hframe
    exact hframe
  · intro g g' hs ht'
    rw [hs, ht'] at hframe
    exact hframe
  · intro u u' hs ht'
    rw [hs, ht'] at hframe
    obtain ⟨⟨hpht, hhist⟩, hG, hmeta, hsel⟩ := hframe
    exact ⟨hpht, hhist, hG, hmeta, hsel⟩

/-! No step takes INDEX_OUT_OF_RANGE (R31, R60). -/

theorem exec_fault_ne_three {i : Instr} {s t : State} (hok : s.predictor.ok s.cfg.size = true) (hs : s.fault ≠ 3)
    (h : exec i s = .next t) : t.fault ≠ 3 := by
  rcases exec_next h with ⟨-, rfl⟩ | ⟨-, -, rfl⟩ | ⟨-, w, -, rfl⟩ | ⟨-, pc, -, rfl⟩ | ⟨-, pc, o, -, rfl⟩
  · exact hs
  · exact hs
  · simp [Raise.code]
  · obtain ⟨q, b, hq⟩ := predictRule_of_ok hok pc
    rw [hq]
    exact hs
  · obtain ⟨q, hq⟩ := trainRule_of_ok hok pc o
    rcases finishTrain_cases (s := s) (pc := pc) (trainRule s.cfg pc o s.predictor) with
      ⟨r, hr, e⟩ | ⟨r, -, hr, -⟩ | ⟨q, -, -, e⟩
    · obtain ⟨rfl, -⟩ := pairCheck_error hr
      rw [e]
      simp [Raise.code]
    · simp [hq] at hr
    · rw [e]
      exact hs

/-- Settles O30: on tables of the configured shape every index is in range, so no kind rule raises, and the other raises have codes 4 and 5. -/
theorem indexOutOfRangeIsUnreachable : Obligations.IndexOutOfRangeIsUnreachable := by
  intro s t hinv hstep hs
  obtain ⟨-, hok, -, -⟩ := inv_iff.1 hinv
  rcases step_next hstep with ⟨-, hx⟩ | ⟨w, rest, i, -, -, -, -, hx⟩ | ⟨rest, -, rfl⟩ | ⟨i, rest, k, n, -, -, rfl⟩
  · exact exec_fault_ne_three hok hs hx
  · exact exec_fault_ne_three (s := { s with inputs := rest }) hok hs hx
  · simp
  · simp

end Sys2Proof.Machine
end

section
/-! SUPPORT. The statements of 30_encoding.md: the decoder and the encoder both ways, the assembler's words, the codes of responses and faults, and construction at the encoded interface. -/

namespace Sys2Proof.Machine

/-! What the decoder gives for a word (R38, R39, R45, R47). -/

section
variable {pw : Nat} {k : Kind} {w : Nat}

theorem decodeCommand_of_fits (h : w < 2 ^ (pw + 3)) :
    decodeCommand pw w =
      .ok (if w % 4 = 0 then .idle else if w % 4 = 1 then .predict (w / 8)
        else if w % 4 = 2 then .train (w / 8) (w.testBit 2) else .reserved w) := by
  rw [decodeCommand, if_pos (wordFits_iff.2 h), op_eq, pc_of_fits h, outcome_eq]

theorem decodeCommand_of_not_fits (h : 2 ^ (pw + 3) ≤ w) : decodeCommand pw w = .error (.notACommandWord w) :=
  if_neg fun hfits => absurd (wordFits_iff.1 hfits) (by omega)

theorem fits_of_decodeCommand {c : Command} (h : decodeCommand pw w = .ok c) : w < 2 ^ (pw + 3) := by
  by_contra hw
  simp [decodeCommand_of_not_fits (not_lt.1 hw)] at h

theorem decode_of_decodeCommand {c : Command} (h : decodeCommand pw w = .ok c) : decode pw k w = .ok (c.row k) := by
  rw [decode, h]

theorem decode_ok_iff {i : Instr} : decode pw k w = .ok i ↔ ∃ c, decodeCommand pw w = .ok c ∧ i = c.row k := by
  constructor
  · intro h
    cases hc : decodeCommand pw w with
    | ok c => exact ⟨c, rfl, Except.ok.inj (h.symm.trans (decode_of_decodeCommand hc))⟩
    | error e => simp [decode, hc] at h
  · rintro ⟨c, hc, rfl⟩
    exact decode_of_decodeCommand hc

/-- A well-formed instruction is the row of its command at the block's KIND (R39). -/
theorem row_of_wellFormed {i : Instr} (h : i.wellFormed pw k = true) : i = i.command.row k := by
  cases i with
  | idle => rfl
  | reserved w => rfl
  | _ =>
    obtain ⟨rfl, -⟩ := checkRow_isNone_iff.1 h
    rfl

theorem decode_encode_of_commandFits {c : Command} (h : CommandFits pw c) : decode pw k c.encode = .ok (c.row k) :=
  decode_of_decodeCommand (decodeCommand_encode h)

end

/-- Settles O1: the decoder gives back the command of a packed word, and the KIND gives back the command's row. -/
theorem decodeOfEncodeIsTheInstruction : Obligations.DecodeOfEncodeIsTheInstruction := by
  intro pw k i h
  calc decode pw k (encode i)
      = .ok (i.command.row k) := decode_encode_of_commandFits (commandFits_of_wellFormed h)
    _ = .ok i := by rw [← row_of_wellFormed h]

/-- Settles O3. -/
theorem everyWordDecodesByItsOpField : Obligations.EveryWordDecodesByItsOpField := by
  intro pw k w
  refine ⟨fun hw => ?_, fun hw => by rw [decode, decodeCommand_of_not_fits hw]⟩
  have hd := decode_of_decodeCommand (k := k) (decodeCommand_of_fits hw)
  refine ⟨fun hop => ?_, fun hop => ?_, fun hop => ?_, fun hop => ?_⟩ <;>
    · simp only [hop] at hd
      exact hd

/-! Encoding a decoded command (R38, R40, R41, R45). -/

/-- A word with op = 10 has no ignored field: packing its fields again gives it back. -/
theorem packWord_fields {w : Nat} (hop : w % 4 = 2) : packWord (w / 8) (w.testBit 2) 2 = w := by
  rw [packWord_eq _ _ (by decide), Nat.toNat_testBit]
  omega

theorem encode_of_decodeCommand {pw w : Nat} {c : Command} (h : decodeCommand pw w = .ok c) :
    c.encode = canonicalWord w := by
  rw [decodeCommand_of_fits (fits_of_decodeCommand h), Except.ok.injEq] at h
  subst h
  rw [canonicalWord, op_eq]
  split_ifs with h0 h1 h2
  · rfl
  · simp [Command.encode, packWord, Nat.shiftRight_eq_div_pow]
  · exact packWord_fields h2
  · rfl

/-- Settles O2: a decoded word fits, so its row is well-formed, and its command packs to the canonical word. -/
theorem encodeOfDecodeIsTheCanonicalWord : Obligations.EncodeOfDecodeIsTheCanonicalWord := by
  intro pw k w i h
  obtain ⟨c, hc, rfl⟩ := decode_ok_iff.1 h
  constructor
  · obtain ⟨j, hj, -, hwf⟩ := decode_of_fits (k := k) (fits_of_decodeCommand hc)
    rwa [Except.ok.inj (h.symm.trans hj)]
  · rw [encode, row_command]
    exact encode_of_decodeCommand hc

/-- Settles O4: the KIND enters only in the row of the decoded command. -/
theorem decodingIsTheSameForEveryKind : Obligations.DecodingIsTheSameForEveryKind := by
  intro pw k k' w i h
  obtain ⟨c, hc, rfl⟩ := decode_ok_iff.1 h
  rw [row_command]
  exact ⟨decode_of_decodeCommand hc, rfl⟩

/-- Settles O5. -/
theorem writtenOutWordsDecode : Obligations.WrittenOutWordsDecode := by
  refine ⟨?_, ?_, ?_, ?_, ?_, ?_, ?_⟩ <;> decide

/-! The words the assembler writes (R48). -/

section
variable {pw pc : Nat} (o : Bool)

theorem assemble_predict_of_fits (h : pc < 2 ^ pw) :
    (AsmLine.predict pc).assemble pw = .ok (.command (Command.predict pc).encode) :=
  if_pos (pcFits_iff.2 h)

theorem assemble_train_of_fits (h : pc < 2 ^ pw) :
    (AsmLine.train pc o).assemble pw = .ok (.command (Command.train pc o).encode) :=
  if_pos (pcFits_iff.2 h)

theorem assemble_predict_of_not_fits (h : 2 ^ pw ≤ pc) :
    (AsmLine.predict pc).assemble pw = .error (.literalTooWide pc) :=
  if_neg fun hfits => absurd (pcFits_iff.1 hfits) (by omega)

theorem assemble_train_of_not_fits (h : 2 ^ pw ≤ pc) :
    (AsmLine.train pc o).assemble pw = .error (.literalTooWide pc) :=
  if_neg fun hfits => absurd (pcFits_iff.1 hfits) (by omega)

end

/-- Settles O7: the assembler writes a command's own word, after the check that makes the command fit. -/
theorem assembledLinesDecodeToTheirCommands : Obligations.AssembledLinesDecodeToTheirCommands := by
  intro pw k pc o
  refine ⟨fun hpc => ⟨?_, ?_⟩, fun hpc => ⟨assemble_predict_of_not_fits hpc, assemble_train_of_not_fits o hpc⟩, ?_⟩
  · exact ⟨_, assemble_predict_of_fits hpc, decode_encode_of_commandFits (pcFits_iff.2 hpc)⟩
  · exact ⟨_, assemble_train_of_fits o hpc, decode_encode_of_commandFits (pcFits_iff.2 hpc)⟩
  · exact ⟨_, rfl, decode_encode_of_commandFits (c := .idle) trivial⟩

/-- Settles O12. -/
theorem responsesAndFaultsHaveTheirCodes : Obligations.ResponsesAndFaultsHaveTheirCodes :=
  ⟨rfl, rfl, rfl, rfl, fun _ => rfl, fun _ => rfl, fun _ _ => rfl, fun _ => rfl, fun _ => rfl, fun _ => rfl⟩

/-! Construction at the encoded interface (R43, R44, R82, R83). -/

@[simp] theorem code_kindOfCode (kc : BitVec 2) : (Kind.ofCode kc).code = kc := by
  revert kc
  decide

/-- SIZE code 3 names no size, and every other code names the size it is the code of (R44). -/
theorem sizeOfCode_cases (sc : BitVec 2) :
    (sc = 3 ∧ Size.ofCode sc = none) ∨ (sc ≠ 3 ∧ ∃ n, Size.ofCode sc = some n ∧ n.code = sc) := by
  by_cases h3 : sc = 3
  · exact .inl ⟨h3, by rw [h3]; rfl⟩
  · refine .inr ⟨h3, ?_⟩
    obtain rfl | rfl | rfl : sc = 0 ∨ sc = 1 ∨ sc = 2 := by bv_omega
    · exact ⟨.n128, rfl, rfl⟩
    · exact ⟨.n1024, rfl, rfl⟩
    · exact ⟨.n4096, rfl, rfl⟩

theorem step_constructCoded {s : State} {kc sc : BitVec 2} {rest : List Input}
    (hin : s.inputs = .constructCoded kc sc :: rest) :
    step s = ({ s with inputs := rest } : State).constructed (newPredictorCoded kc sc) := by
  simp only [step, takeInput_cons hin, handle]

/-- Settles O39: the construction fails just where the SIZE code names no size, and gives a fresh block where it names one. -/
theorem codedConstructionRefusesTheReservedSizeOnly : Obligations.CodedConstructionRefusesTheReservedSizeOnly := by
  intro s kc sc rest hin
  rw [step_constructCoded hin, newPredictorCoded]
  rcases sizeOfCode_cases sc with ⟨rfl, hnone⟩ | ⟨h3, n, hn, hcode⟩
  · rw [hnone]
    exact ⟨fun _ => rfl, fun h => absurd rfl h⟩
  · rw [hn]
    refine ⟨fun h => absurd h h3, fun _ => ⟨_, rfl, fresh_isFresh .., ?_, hcode, rfl⟩⟩
    rw [fresh_kind, code_kindOfCode]

end Sys2Proof.Machine
end

section
/-! SUPPORT. The statements of 40_dispatch.md: IDLE and the reserved command, a TRAIN that fails the pairing check and one that is not checked, and the faulted block. -/

namespace Sys2Proof.Machine

/-! IDLE and the reserved command (R51, R54). -/

/-- Settles O13: the decoder looks at op alone, and IDLE's whole effect is the recorded answer. -/
theorem idleWritesNothing : Obligations.IdleWritesNothing := by
  intro s
  refine ⟨fun w hw hop => ?_, fun hf => ?_, fun hf => exec_faulted .idle hf⟩
  · obtain ⟨hdecode, -⟩ := everyWordDecodesByItsOpField s.cfg.pcWidth s.kind w
    exact (hdecode hw).1 hop
  · rw [exec_idle, whenRunning_of_noFault hf]
    rfl

/-- Settles O14. -/
theorem reservedTakesItsFault : Obligations.ReservedTakesItsFault := by
  intro s w
  refine ⟨fun hw hop => ?_, fun hf => ?_⟩
  · obtain ⟨hdecode, -⟩ := everyWordDecodesByItsOpField s.cfg.pcWidth s.kind w
    obtain ⟨-, -, -, hreserved⟩ := hdecode hw
    exact hreserved hop
  · rw [exec_reserved, whenRunning_of_noFault hf]
    rfl

/-! The pairing check of a TRAIN (R52, R85). -/

theorem pairCheck_of_unpaired {s : State} {pc : Nat} (hstrict : s.cfg.strictPairing = true)
    (hpair : s.pairPc ≠ some pc) : s.pairCheck pc = .error (.protocolViolation pc s.pairPc) :=
  if_pos ⟨hstrict, hpair⟩

/-- The pairing check stands before the kind rule, so its raise wins over whatever `p` is (R85). -/
theorem finishTrain_of_unpaired {s : State} {pc : Nat} (hstrict : s.cfg.strictPairing = true)
    (hpair : s.pairPc ≠ some pc) (p : Except Raise Predictor) :
    s.finishTrain pc p = s.raise (.protocolViolation pc s.pairPc) := by
  simp only [State.finishTrain, pairCheck_of_unpaired hstrict hpair]

/-- Settles O26: the row of every KIND ends in the same pairing check, which comes before what the kind rule gives. -/
theorem unpairedTrainTakesProtocolViolation : Obligations.UnpairedTrainTakesProtocolViolation := by
  intro s pc o hf hstrict hpair
  rw [exec_row_of_noFault hf, State.after, finishTrain_of_unpaired hstrict hpair]
  rfl

/-- Settles O27: the unchecked TRAIN ends as its kind rule says, which raises nothing under the invariant, does not read the monitor, and overwrites it. -/
theorem uncheckedTrainDisregardsTheMonitor : Obligations.UncheckedTrainDisregardsTheMonitor := by
  intro s pc o p hinv hf hstrict
  obtain ⟨-, hok, -, -⟩ := inv_iff.1 hinv
  obtain ⟨q, hq⟩ := trainRule_of_ok hok pc o
  have completes : ∀ m, exec ((Command.train pc o).row s.kind) { s with pairPc := m } = .next (s.trainedTo q) :=
    fun m => ((exec_train_completes_iff (s := { s with pairPc := m }) hf).2
      ⟨fun hs => by simp [hstrict] at hs, q, hq, rfl⟩).1
  exact ⟨s.trainedTo q, completes s.pairPc, hf, rfl, completes p⟩

/-! The faulted block (R50, R87, R105). -/

/-- A step on a faulted block keeps the code, unless it takes an input that is no command. -/
theorem step_faulted {s t : State} (hf : s.fault ≠ 0) (hstep : step s = .next t) :
    (t.fault = s.fault ∧ t.inputs = s.inputs.tail) ∨
      ∃ i rest, s.inputs = i :: rest ∧ ∀ w, i ≠ .command w := by
  rcases step_next hstep with ⟨hin, hx⟩ | ⟨w, rest, i, hin, -, -, -, hx⟩ | ⟨rest, hin, -⟩ |
    ⟨i, rest, k, n, hin, ⟨a, b, rfl⟩ | ⟨a, b, rfl⟩, -⟩
  · obtain ⟨-, -, hinputs, hfault⟩ := exec_keeps hx
    exact .inl ⟨hfault hf, by rw [hinputs, hin, List.tail_nil]⟩
  · obtain ⟨-, -, hinputs, hfault⟩ := exec_keeps hx
    exact .inl ⟨hfault hf, by rw [hinputs, hin, List.tail_cons]⟩
  · exact .inr ⟨_, rest, hin, by simp⟩
  · exact .inr ⟨_, rest, hin, by simp⟩
  · exact .inr ⟨_, rest, hin, by simp⟩

/-- While only command words come, a faulted block is still faulted after any number of steps (R50). -/
theorem observe_faulted {u : State} (k : Nat) : ∀ (s : State) (as : List (Option Answer)), s.fault ≠ 0 →
    (∀ i ∈ s.inputs, ∃ w, i = .command w) → observe k s = some (as, u) → u.fault = s.fault := by
  induction k with
  | zero =>
    intro s as _ _ ho
    cases ho
    rfl
  | succ k ih =>
    intro s as hf hcommands ho
    obtain ⟨t, rest, hstep, hrest, -⟩ := observe_succ_iff.1 ho
    rcases step_faulted hf hstep with ⟨hfault, hinputs⟩ | ⟨i, ins, hin, hno⟩
    · have htail : ∀ i ∈ t.inputs, ∃ w, i = .command w := by
        rw [hinputs]
        exact fun i hi => hcommands i (List.mem_of_mem_tail hi)
      exact (ih t rest (hfault ▸ hf) htail hrest).trans hfault
    · obtain ⟨w, hw⟩ := hcommands i (by simp [hin])
      exact absurd hw (hno w)

/-- Settles O29: a command word decodes to an instruction that only answers the code held, so a run of commands keeps the code to its end. -/
theorem faultedBlockIsStuckUntilReset : Obligations.FaultedBlockIsStuckUntilReset := by
  refine ⟨?_, ?_, ?_⟩
  · intro s w rest hf hin hw
    obtain ⟨i, hd, -, -⟩ := decode_of_fits (k := s.kind) hw
    exact (step_command hin hd).trans (exec_faulted (s := { s with inputs := rest }) i hf)
  · intro s t hf hstep hchanged
    rcases step_faulted hf hstep with ⟨hsame, -⟩ | hother
    · exact absurd hsame hchanged
    · exact hother
  · rintro s hf hcommands ⟨as, u, ho, hu, -⟩
    exact hf ((observe_faulted _ s as hf hcommands ho).symm.trans hu)

end Sys2Proof.Machine
end

section
/-! SUPPORT. The statements of 41_counter_table.md: what each counter operation leaves at its entry and elsewhere, the index check, and the laws of a saturating counter. -/

namespace Sys2Proof.Machine

open Sys2Proof.Claims

/-! The operations inside and outside the table (R56 to R60, R62). -/

theorem trained_eq_moved (c : Counter) (o : Bool) : trained c o = moved c o := by
  cases o with
  | true => rfl
  | false =>
    have hmax : (max ((c.toNat : Int) - 1) 0).toNat = c.toNat - 1 := by omega
    exact congrArg (BitVec.ofNat 2) hmax

section
variable {t : CounterTable} {i : Nat}

theorem ctRead_of_entry {c : Counter} (h : t[i]? = some c) : ctRead t i = .ok (bias c) :=
  ctRead_ok_iff.2 ⟨c, h, rfl⟩

/-- `CT_TRAIN` at an entry: the value it writes there, and its frame. -/
theorem ctTrain_of_entry {c : Counter} (h : t[i]? = some c) (o : Bool) :
    ∃ u, ctTrain t i o = .ok u ∧ u.length = t.length ∧ u[i]? = some (moved c o) ∧ ∀ j, j ≠ i → u[j]? = t[j]? := by
  obtain ⟨hi, -⟩ := List.getElem?_eq_some_iff.1 h
  rw [← trained_eq_moved]
  exact ⟨_, ctTrain_ok_iff.2 ⟨c, h, rfl⟩, tblWrite_length, tblWrite_read_same hi, fun _ hj => tblWrite_read_other hj⟩

theorem ctRead_of_length_le (h : t.length ≤ i) : ctRead t i = .error (.indexOutOfRange i) := by
  rw [ctRead, tblRead_error_iff.2 ⟨h, rfl⟩]

theorem ctTrain_of_length_le (h : t.length ≤ i) (o : Bool) : ctTrain t i o = .error (.indexOutOfRange i) := by
  cases hu : ctTrain t i o with
  | error r => rw [(ctTrain_error hu).2]
  | ok u =>
    obtain ⟨c, hc, -⟩ := ctTrain_ok_iff.1 hu
    simp [List.getElem?_eq_none h] at hc

end

/-- Settles O8: `CT_INC` and `CT_DEC` are the two cases of `CT_TRAIN`, which writes the moved counter at its entry alone. -/
theorem counterOperationsTouchOneEntry : Obligations.CounterOperationsTouchOneEntry := by
  intro t i c h
  exact ⟨ctRead_of_entry h, ctTrain_of_entry h true, ctTrain_of_entry h false, rfl, rfl⟩

/-- Settles O9. -/
theorem indexCheckRaisesOutsideTheTable : Obligations.IndexCheckRaisesOutsideTheTable := by
  intro t i o h
  exact ⟨ctRead_of_length_le h, ctTrain_of_length_le h true, ctTrain_of_length_le h false, ctTrain_of_length_le h o⟩

/-! The laws of one counter (R61). -/

theorem moved_true_toNat (c : Counter) : (moved c true).toNat = min (c.toNat + 1) 3 :=
  Nat.mod_eq_of_lt (show min (c.toNat + 1) 3 < 2 ^ 2 by omega)

theorem moved_false_toNat (c : Counter) : (moved c false).toNat = c.toNat - 1 :=
  Nat.mod_eq_of_lt (Nat.sub_lt_of_lt c.isLt)

/-- The bias is a threshold, so it is monotone. -/
theorem bias_of_le {c d : Counter} (hle : c.toNat ≤ d.toNat) (hc : bias c = true) : bias d = true :=
  decide_eq_true ((of_decide_eq_true hc).trans hle)

/-- From the values 0, 1, 2, 3 two steps up end at 2, 3, 3, 3, and two steps down at 0, 0, 0, 1. -/
theorem bias_moved_moved : ∀ (c : Counter) (o : Bool), bias (moved (moved c o) o) = o := by decide

/-- One opposite step crosses the threshold from 1 and 2, and only makes a saturated counter weak. -/
theorem bias_moved : ∀ (c : Counter) (o : Bool),
    bias (moved c o) = if bias c = o then o else if c = 1 ∨ c = 2 then o else !o := by decide

/-- Settles O10: each law of a table entry is the law of its counter, read through what the operations leave at the entry. -/
theorem countersHaveHysteresis : Obligations.CountersHaveHysteresis := by
  refine ⟨fun t i c h => ?_, fun t i j c d hc hd hle hread => ?_, fun t i c o h => ?_⟩
  · obtain ⟨u, hu, -, hui, -⟩ := ctTrain_of_entry h true
    obtain ⟨v, hv, -, hvi, -⟩ := ctTrain_of_entry h false
    have hc : c.toNat < 4 := c.isLt
    refine ⟨u, v, _, _, hu, hv, hui, hvi, ?_⟩
    rw [moved_true_toNat, moved_false_toNat]
    omega
  · rw [ctRead_of_entry hc, Except.ok.injEq] at hread
    rw [ctRead_of_entry hd, bias_of_le hle hread]
  · obtain ⟨u, hu, -, hui, -⟩ := ctTrain_of_entry h o
    obtain ⟨v, hv, -, hvi, -⟩ := ctTrain_of_entry hui o
    refine ⟨u, v, hu, hv, ?_, ?_⟩
    · rw [ctRead_of_entry hvi, bias_moved_moved]
    · rw [ctRead_of_entry hui, bias_moved]

end Sys2Proof.Machine
end

section
/-! SUPPORT. The statements of 42_local.md: the history recurrence and the shift register it makes of a local history, and what the completed commands of the two history-indexed predictors answer and write. -/

namespace Sys2Proof.Machine

open Sys2Proof.Claims

/-! The history recurrence bit by bit (R64). -/

section
variable (n : Size) (i : Nat) (o : Bool)

theorem width_pos : 0 < n.width := by
  cases n <;> decide

/-- HIST_NEXT puts the outcome below the index as a new bit 0, and keeps W bits. -/
theorem histNext_eq_bit : histNext n i o = Nat.bit o i % 2 ^ n.width := by
  rw [histNext_eq, entries_eq, Nat.bit_val]

theorem histNext_testBit_zero : (histNext n i o).testBit 0 = o := by
  rw [histNext_eq_bit, Nat.testBit_mod_two_pow, Nat.testBit_bit_zero, decide_eq_true (width_pos n), Bool.true_and]

theorem histNext_testBit_succ (j : Nat) :
    (histNext n i o).testBit (j + 1) = (decide (j + 1 < n.width) && i.testBit j) := by
  rw [histNext_eq_bit, Nat.testBit_mod_two_pow, Nat.testBit_bit_succ]

end

/-- Settles O11. -/
theorem historyRecurrenceShiftsTheIndex : Obligations.HistoryRecurrenceShiftsTheIndex :=
  fun n i o => ⟨histNext_testBit_zero n i o, histNext_testBit_succ n i o, histNext_lt n i o⟩

/-! A local history along a list of TRAINs (R66, R67). -/

/-- The value `h` is the W-bit shift register of the outcomes `outs`, the newest first and in bit 0. -/
def ShiftRegister (n : Size) (outs : List Bool) (h : Nat) : Prop :=
  ∀ j, h.testBit j = (decide (j < n.width) && outs.getD j false)

/-- The outcomes trained at a bucket, the newest first. -/
def outcomesAt (b : Nat) (trains : List (Nat × Bool)) : List Bool :=
  ((trains.filter fun x => x.1 % 128 == b).map Prod.snd).reverse

theorem outcomesAt_concat (b : Nat) (trains : List (Nat × Bool)) (x : Nat × Bool) :
    outcomesAt b (trains ++ [x]) = if x.1 % 128 = b then x.2 :: outcomesAt b trains else outcomesAt b trains := by
  split <;> simp [outcomesAt, List.filter_append, *]

section
variable {n : Size}

theorem shiftRegister_nil : ShiftRegister n [] 0 := by
  intro j
  simp

/-- HIST_NEXT takes one more outcome into the register. -/
theorem ShiftRegister.histNext {outs : List Bool} {h : Nat} (hr : ShiftRegister n outs h) (o : Bool) :
    ShiftRegister n (o :: outs) (histNext n h o) := by
  intro j
  cases j with
  | zero => rw [histNext_testBit_zero, decide_eq_true (width_pos n), Bool.true_and, List.getD_cons_zero]
  | succ j =>
    have hlt : j + 1 < n.width → j < n.width := Nat.lt_of_succ_lt
    rw [histNext_testBit_succ, hr j, List.getD_cons_succ, ← Bool.and_assoc, ← Bool.decide_and]
    simp only [and_iff_left_of_imp hlt]

theorem localTrain_of_ok {l : LocalState} (hok : l.ok n = true) (pc : Nat) (o : Bool) :
    ∃ l', localTrain n l pc o = .ok l' := by
  obtain ⟨i, c, hi, hc, -⟩ := local_entries hok pc
  exact ⟨_, localTrain_ok_iff.2 ⟨i, c, hi, hc, rfl⟩⟩

/-- A TRAIN moves the history of its own bucket by HIST_NEXT, and no other. -/
theorem localTrain_hist {l l' : LocalState} {pc b h : Nat} {o : Bool} (hl : localTrain n l pc o = .ok l')
    (hb : l.hist[b]? = some h) : l'.hist[b]? = some (if pc % 128 = b then histNext n h o else h) := by
  obtain ⟨i, c, hi, -, rfl⟩ := localTrain_ok_iff.1 hl
  rw [localBucket_eq] at hi ⊢
  split
  · next hpc =>
    subst hpc
    obtain rfl : i = h := Option.some.inj (hi.symm.trans hb)
    exact tblWrite_read_same (List.getElem?_eq_some_iff.1 hb).1
  · next hpc => exact (tblWrite_read_other (Ne.symm hpc)).trans hb

/-- The TRAINs raise nothing, keep the shape, and leave the bucket's history the register of its outcomes. -/
theorem localTrains_shiftRegister {l : LocalState} {b : Nat} (trains : List (Nat × Bool)) (hok : l.ok n = true)
    (hb : l.hist[b]? = some 0) :
    ∃ l' h, trains.foldlM (fun l x => localTrain n l x.1 x.2) l = .ok l' ∧ l'.ok n = true ∧
      l'.hist[b]? = some h ∧ ShiftRegister n (outcomesAt b trains) h := by
  induction trains using List.reverseRecOn with
  | nil => exact ⟨l, 0, rfl, hok, hb, shiftRegister_nil⟩
  | append_singleton trains x ih =>
    obtain ⟨m, h, hm, hmok, hmb, hr⟩ := ih
    obtain ⟨l', hl'⟩ := localTrain_of_ok hmok x.1 x.2
    refine ⟨l', _, ?_, localTrain_keeps_ok hmok hl', localTrain_hist hl' hmb, ?_⟩
    · rw [List.foldlM_append, hm]
      exact (bind_pure _).trans hl'
    · rw [outcomesAt_concat]
      split
      · exact hr.histNext x.2
      · exact hr

end

/-- Settles O43, by induction on the TRAINs from the newest: one at the bucket takes its outcome into the register, one elsewhere leaves it. -/
theorem localHistoryIsTheOutcomeShiftRegister : Obligations.LocalHistoryIsTheOutcomeShiftRegister := by
  intro n l b trains hok _ hb
  obtain ⟨l', h, hl', -, hh, hr⟩ := localTrains_shiftRegister trains hok hb
  exact ⟨l', h, hl', hh, hr⟩

/-! The completed commands of the local and the gshare predictor (R65, R66, R70). -/

section
variable {s : State} {pc : Nat}

/-- On a block that is not faulted, a PREDICT whose kind rule raises nothing completes with what the rule gave (R53). -/
theorem exec_predict_of_rule {p q : Predictor} {b : Bool} (hf : s.fault = 0) (hp : s.predictor = p)
    (hr : predictRule s.cfg pc p = .ok (q, b)) :
    exec ((Command.predict pc).row p.kind) s = .next (s.predicted pc q b) := by
  subst hp
  exact ((exec_predict_completes_iff hf).2 ⟨q, b, hr, rfl⟩).1

/-- On a block that is not faulted, a TRAIN that passes the pairing check and whose kind rule raises nothing completes with what the rule gave (R52, R53). -/
theorem exec_train_of_rule {p q : Predictor} {o : Bool} (hf : s.fault = 0) (hp : s.predictor = p)
    (hpair : paired s pc) (hr : trainRule s.cfg pc o p = .ok q) :
    exec ((Command.train pc o).row p.kind) s = .next (s.trainedTo q) := by
  subst hp
  exact ((exec_train_completes_iff hf).2 ⟨hpair, q, hr, rfl⟩).1

/-- Under the invariant the bucket has its history and the table a counter at it (R31, R63). -/
theorem local_entries_of_inv {l : LocalState} (hinv : s.inv = true) (hp : s.predictor = .ofLocal l) (pc : Nat) :
    ∃ h c, l.hist[pc % 128]? = some h ∧ l.pht[h]? = some c := by
  obtain ⟨-, hok, -, -⟩ := inv_iff.1 hinv
  rw [hp] at hok
  obtain ⟨h, c, hh, hc, -⟩ := local_entries hok pc
  exact ⟨h, c, localBucket_eq pc ▸ hh, hc⟩

/-- Under the invariant the table has a counter at the XOR index (R31, R68). -/
theorem gshare_entry_of_inv {g : GshareState} (hinv : s.inv = true) (hp : s.predictor = .ofGshare g) (pc : Nat) :
    ∃ c, g.pht[(pc % s.cfg.size.entries) ^^^ g.ghr]? = some c := by
  obtain ⟨-, hok, -, -⟩ := inv_iff.1 hinv
  rw [hp] at hok
  obtain ⟨c, hc⟩ := gshare_entry hok pc
  exact ⟨c, gshareIndex_eq s.cfg.size g pc ▸ hc⟩

end

section
variable {n : Size} {pc : Nat} {c : Counter}

theorem localPred_of_entries {l : LocalState} {h : Nat} (hh : l.hist[pc % 128]? = some h)
    (hc : l.pht[h]? = some c) : localPred l pc = .ok (bias c) :=
  localPred_ok_iff.2 ⟨h, c, (localBucket_eq pc).symm ▸ hh, hc, rfl⟩

theorem localTrain_of_entries {l : LocalState} {h : Nat} (hh : l.hist[pc % 128]? = some h)
    (hc : l.pht[h]? = some c) (o : Bool) :
    localTrain n l pc o = .ok {
      pht := l.pht.set h (moved c o)
      hist := l.hist.set (pc % 128) ((2 * h + o.toNat) % n.entries) } := by
  rw [← trained_eq_moved, ← histNext_eq, ← localBucket_eq pc]
  exact localTrain_ok_iff.2 ⟨h, c, (localBucket_eq pc).symm ▸ hh, hc, rfl⟩

theorem gshareTrain_of_entry {g : GshareState} (hc : g.pht[(pc % n.entries) ^^^ g.ghr]? = some c) (o : Bool) :
    gshareTrain n g pc o = .ok {
      pht := g.pht.set ((pc % n.entries) ^^^ g.ghr) (moved c o)
      ghr := (2 * ((pc % n.entries) ^^^ g.ghr) + o.toNat) % n.entries } := by
  rw [← gshareIndex_eq] at hc
  rw [← trained_eq_moved, ← histNext_eq, ← gshareIndex_eq]
  exact gshareTrain_ok_iff.2 ⟨c, hc, rfl⟩

end

/-- Settles O17. -/
theorem predictLocalReadsTheHistoryIndexedCounter : Obligations.PredictLocalReadsTheHistoryIndexedCounter := by
  intro s l pc hinv hf hp
  obtain ⟨h, c, hh, hc⟩ := local_entries_of_inv hinv hp pc
  have hrule : predictRule s.cfg pc (.ofLocal l) = .ok (.ofLocal l, bias c) :=
    map_ok_iff.2 ⟨_, localPred_of_entries hh hc, rfl⟩
  have hexec : exec (.predictLocal pc) s = .next (s.predicted pc (.ofLocal l) (bias c)) :=
    exec_predict_of_rule hf hp hrule
  rw [← hp] at hexec
  exact ⟨h, c, hh, hc, hexec⟩

/-- Settles O18. -/
theorem trainLocalMovesCounterAndHistory : Obligations.TrainLocalMovesCounterAndHistory := by
  intro s l pc o hinv hf hp hpair
  obtain ⟨h, c, hh, hc⟩ := local_entries_of_inv hinv hp pc
  exact ⟨h, c, hh, hc, exec_train_of_rule hf hp hpair (map_ok_iff.2 ⟨_, localTrain_of_entries hh hc o, rfl⟩)⟩

/-- Settles O20. -/
theorem trainGshareMovesCounterAndHistory : Obligations.TrainGshareMovesCounterAndHistory := by
  intro s g pc o hinv hf hp hpair
  obtain ⟨c, hc⟩ := gshare_entry_of_inv hinv hp pc
  exact ⟨c, hc, exec_train_of_rule hf hp hpair (map_ok_iff.2 ⟨_, gshareTrain_of_entry hc o, rfl⟩)⟩

end Sys2Proof.Machine
end

section
/-! SUPPORT. The statements of 43_gshare.md: the global index and the next global history bit by bit, and what a completed gshare PREDICT answers. -/

namespace Sys2Proof.Machine

open Sys2Proof.Claims

section
variable {n : Size} {g : GshareState} {pc : Nat}

theorem gsharePred_of_entry {c : Counter} (hc : g.pht[(pc % n.entries) ^^^ g.ghr]? = some c) :
    gsharePred n g pc = .ok (bias c) :=
  gsharePred_ok_iff.2 ⟨c, (gshareIndex_eq n g pc).symm ▸ hc, rfl⟩

/-- Below W the index is the XOR of the pc and the history, bit by bit (R68). -/
theorem gshareIndex_testBit {j : Nat} (hj : j < n.width) :
    (gshareIndex n g pc).testBit j = (pc.testBit j ^^ g.ghr.testBit j) := by
  rw [gshareIndex_eq, entries_eq, Nat.testBit_xor, Nat.testBit_mod_two_pow, decide_eq_true hj, Bool.true_and]

/-- The history that HIST_NEXT makes of the global index: above the outcome stand the mixed bits, up to W (R64, R71). -/
theorem histNext_gshareIndex_testBit_succ (o : Bool) (j : Nat) :
    (histNext n (gshareIndex n g pc) o).testBit (j + 1) =
      (decide (j + 1 < n.width) && (pc.testBit j ^^ g.ghr.testBit j)) := by
  rw [histNext_testBit_succ]
  by_cases hj : j + 1 < n.width
  · rw [gshareIndex_testBit (Nat.lt_of_succ_lt hj)]
  · rw [decide_eq_false hj, Bool.false_and, Bool.false_and]

end

/-- Settles O44: the history that O20 writes is HIST_NEXT of the global index. -/
theorem globalHistoryMixesPcBits : Obligations.GlobalHistoryMixesPcBits := by
  intro s g pc o hinv hf hp hpair
  obtain ⟨c, -, hexec⟩ := trainGshareMovesCounterAndHistory s g pc o hinv hf hp hpair
  rw [← gshareIndex_eq, ← histNext_eq] at hexec
  exact ⟨_, _, hexec, rfl, histNext_testBit_zero .., histNext_gshareIndex_testBit_succ o⟩

/-- Settles O19. -/
theorem predictGshareReadsTheXorIndexedCounter : Obligations.PredictGshareReadsTheXorIndexedCounter := by
  intro s g pc hinv hf hp
  obtain ⟨c, hc⟩ := gshare_entry_of_inv hinv hp pc
  have hrule : predictRule s.cfg pc (.ofGshare g) = .ok (.ofGshare g, bias c) :=
    map_ok_iff.2 ⟨_, gsharePred_of_entry hc, rfl⟩
  have hexec : exec (.predictGshare pc) s = .next (s.predicted pc (.ofGshare g) (bias c)) :=
    exec_predict_of_rule hf hp hrule
  rw [← hp] at hexec
  exact ⟨c, hc, hexec⟩

end Sys2Proof.Machine
end

section
/-! SUPPORT. The statements of 44_tournament.md: the movement of the meta-counter, what the completed commands of the tournament answer and write, and the recorded selection between a PREDICT and its TRAIN. -/

namespace Sys2Proof.Machine

open Sys2Proof.Claims

/-! The meta movement (R74, R75, R76). -/

/-- For a taken outcome a prediction is right just when it is `taken`, so the two readings agree. -/
theorem correctness_of_taken (pl pg : Bool) :
    correctness .correctness pl pg true = correctness .predictionOnly pl pg true := by
  simp only [correctness, beq_true]

/-- Settles O23: both forms of the rule table cell by cell, and the two readings through their correctness bits. -/
theorem metaMovementFollowsTheRuleTable : Obligations.MetaMovementFollowsTheRuleTable := by
  refine ⟨fun lu => ?_, fun _ => ⟨rfl, rfl, rfl⟩, fun lr gr lu => ?_, fun _ _ => ⟨rfl, rfl, rfl⟩,
    fun _ _ _ _ => rfl, fun _ _ _ _ => rfl, fun pl pg lu => ?_⟩
  · cases lu <;> rfl
  · cases lu <;> cases lr <;> cases gr <;> rfl
  · rw [trainDelta, trainDelta, correctness_of_taken]

section
variable {t : CounterTable} {i : Nat} {c : Counter}

theorem ctTrain_eq_set (h : t[i]? = some c) (o : Bool) : ctTrain t i o = .ok (t.set i (moved c o)) := by
  rw [← trained_eq_moved]
  exact ctTrain_ok_iff.2 ⟨c, h, rfl⟩

/-- Writing back what stands at an entry changes nothing. -/
theorem set_entry_self (h : t[i]? = some c) : t.set i c = t := by
  obtain ⟨hi, rfl⟩ := List.getElem?_eq_some_iff.1 h
  exact List.set_getElem_self hi

/-- Applying the movement of a cell of the rule table is writing the moved counter: +1 is a step up, -1 a step down, 0 no write. -/
theorem metaApply_metaDelta (h : t[i]? = some c) (lr gr : Bool) (lu : Selector) :
    metaApply t i (metaDelta lr gr lu) = .ok (t.set i (metaMoved c lr gr lu)) := by
  cases lr with
  | true =>
    cases gr with
    | true =>
      cases lu with
      | useGlobal => exact ctTrain_eq_set h true
      | useLocal => exact ctTrain_eq_set h false
    | false => exact ctTrain_eq_set h false
  | false =>
    cases gr with
    | true => exact ctTrain_eq_set h true
    | false => exact congrArg Except.ok (set_entry_self h).symm

end

/-! The completed commands of the tournament (R72, R73, R77). -/

/-- Under the invariant every entry that a tournament reads for a pc exists (R31, R63, R68, R72). -/
theorem tournament_entries_of_inv {s : State} {t : TournamentState} (hinv : s.inv = true)
    (hp : s.predictor = .ofTournament t) (pc : Nat) :
    ∃ cm h cl cg, t.metaTable[pc % s.cfg.size.entries]? = some cm ∧
      t.L.hist[pc % 128]? = some h ∧ t.L.pht[h]? = some cl ∧
      t.G.pht[(pc % s.cfg.size.entries) ^^^ t.G.ghr]? = some cg := by
  obtain ⟨-, hok, -, -⟩ := inv_iff.1 hinv
  rw [hp] at hok
  obtain ⟨hL, hG, hM⟩ := tournament_ok_iff.1 hok
  obtain ⟨h, cl, hh, hl, -⟩ := local_entries hL pc
  obtain ⟨cg, hg⟩ := gshare_entry hG pc
  have hlt : pc % s.cfg.size.entries < t.metaTable.length := hM.symm ▸ Nat.mod_lt pc (entries_pos _)
  exact ⟨_, h, cl, cg, List.getElem?_eq_getElem hlt, localBucket_eq pc ▸ hh, hl, gshareIndex_eq s.cfg.size t.G pc ▸ hg⟩

/-- The selection is the meta-counter's bias (R15, R72). -/
theorem sel_eq_of_bias (c : Counter) : sel c = if bias c then .useGlobal else .useLocal := by
  simp only [sel, bias, decide_eq_true_eq]

section
variable {t : TournamentState} {pc h : Nat} {cm cl cg : Counter}

theorem tournamentPredict_of_entries {n : Size} (hm : t.metaTable[pc % n.entries]? = some cm)
    (hh : t.L.hist[pc % 128]? = some h) (hl : t.L.pht[h]? = some cl)
    (hg : t.G.pht[(pc % n.entries) ^^^ t.G.ghr]? = some cg) :
    tournamentPredict n t pc = .ok ({ t with lastUsed := if bias cm then .useGlobal else .useLocal },
      if bias cm then bias cg else bias cl) := by
  rw [← metaIndex_eq] at hm
  refine tournamentPredict_ok_iff.2 ⟨cm, hm, by rw [sel_eq_of_bias], ?_⟩
  cases bias cm with
  | true => exact gsharePred_of_entry hg
  | false => exact localPred_of_entries hh hl

theorem tournamentTrain_of_entries {cfg : Cfg} (hm : t.metaTable[pc % cfg.size.entries]? = some cm)
    (hh : t.L.hist[pc % 128]? = some h) (hl : t.L.pht[h]? = some cl)
    (hg : t.G.pht[(pc % cfg.size.entries) ^^^ t.G.ghr]? = some cg) (o : Bool) :
    tournamentTrain cfg t pc o = .ok {
      L := {
        pht := t.L.pht.set h (moved cl o)
        hist := t.L.hist.set (pc % 128) ((2 * h + o.toNat) % cfg.size.entries) }
      G := {
        pht := t.G.pht.set ((pc % cfg.size.entries) ^^^ t.G.ghr) (moved cg o)
        ghr := (2 * ((pc % cfg.size.entries) ^^^ t.G.ghr) + o.toNat) % cfg.size.entries }
      metaTable := t.metaTable.set (pc % cfg.size.entries)
        (metaMoved cm (correctness cfg.metaReading (bias cl) (bias cg) o).1
          (correctness cfg.metaReading (bias cl) (bias cg) o).2 t.lastUsed)
      lastUsed := t.lastUsed } := by
  refine tournamentTrain_ok_iff.2 ⟨_, _, _, _, _, localPred_of_entries hh hl, gsharePred_of_entry hg,
    localTrain_of_entries hh hl o, gshareTrain_of_entry hg o, ?_, rfl⟩
  rw [metaIndex_eq]
  exact metaApply_metaDelta hm ..

end

/-- Settles O21. -/
theorem predictTournamentRecordsAndDelegates : Obligations.PredictTournamentRecordsAndDelegates := by
  intro s t pc hinv hf hp
  obtain ⟨cm, h, cl, cg, hm, hh, hl, hg⟩ := tournament_entries_of_inv hinv hp pc
  exact ⟨cm, h, cl, cg, hm, hh, hl, hg,
    exec_predict_of_rule hf hp (map_ok_iff.2 ⟨_, tournamentPredict_of_entries hm hh hl hg, rfl⟩)⟩

/-- Settles O22: the correctness bits of each reading are the arguments that its side of the statement gives the rule table. -/
theorem trainTournamentTrainsBothAndMovesMeta : Obligations.TrainTournamentTrainsBothAndMovesMeta := by
  intro s t pc o hinv hf hp hpair
  obtain ⟨cm, h, cl, cg, hm, hh, hl, hg⟩ := tournament_entries_of_inv hinv hp pc
  have hexec := exec_train_of_rule hf hp hpair (map_ok_iff.2 ⟨_, tournamentTrain_of_entries hm hh hl hg o, rfl⟩)
  refine ⟨cm, h, cl, cg, hm, hh, hl, hg, hexec.trans ?_⟩
  cases s.cfg.metaReading <;> rfl

/-! The recorded selection (R73, R78). -/

theorem selectionRecorded_iff {s : State} :
    s.selectionRecorded = true ↔ ∀ t p, s.predictor = .ofTournament t → s.pairPc = some p →
      ∃ c, t.metaTable[metaIndex s.cfg.size p]? = some c ∧ t.lastUsed = sel c := by
  unfold State.selectionRecorded
  split
  · next t p hp hpair =>
    rw [hp, hpair]
    cases hc : t.metaTable[metaIndex s.cfg.size p]? <;> simp [hc]
  · next hother => simpa using fun t p hp hpair => absurd hpair (hother t p hp)

/-- A completed PREDICT records the selection of the pc it puts in the monitor. -/
theorem predicted_selectionRecorded {s : State} {pc : Nat} {q : Predictor} {b : Bool}
    (h : predictRule s.cfg pc s.predictor = .ok (q, b)) : (s.predicted pc q b).selectionRecorded = true := by
  refine selectionRecorded_iff.2 fun t p hq hpair => ?_
  obtain rfl : pc = p := Option.some.inj hpair
  obtain rfl : q = .ofTournament t := hq
  rcases predictRule_ok h with ⟨heq, hnot⟩ | ⟨u, c, -, hc, hu, -⟩
  · exact absurd heq.symm (hnot t)
  · obtain rfl := Predictor.ofTournament.inj hu
    exact ⟨c, hc, rfl⟩

/-- An instruction that writes neither the predictor nor the monitor keeps the record, a PREDICT makes it anew, and a TRAIN that completes clears the monitor. -/
theorem exec_keeps_selectionRecorded {i : Instr} {s t : State} (hs : s.selectionRecorded = true)
    (h : exec i s = .next t) : t.selectionRecorded = true := by
  rcases exec_next h with ⟨-, rfl⟩ | ⟨-, -, rfl⟩ | ⟨-, w, -, rfl⟩ | ⟨-, pc, -, rfl⟩ | ⟨-, pc, o, -, rfl⟩
  · exact hs
  · exact hs
  · exact hs
  · cases hr : predictRule s.cfg pc s.predictor with
    | error r => exact hs
    | ok x => exact predicted_selectionRecorded hr
  · rcases finishTrain_cases (s := s) (pc := pc) (trainRule s.cfg pc o s.predictor) with
      ⟨r, -, e⟩ | ⟨r, -, -, e⟩ | ⟨q, -, -, e⟩ <;> rw [e]
    · exact hs
    · exact hs
    · exact selectionRecorded_of_pairPc_none rfl

/-- Settles O47, along what a step can do: an instruction keeps the record, and a fresh block monitors no PREDICT. -/
theorem stepKeepsTheSelectionRecorded : Obligations.StepKeepsTheSelectionRecorded := by
  intro s t hs hstep
  rcases step_next hstep with ⟨-, hx⟩ | ⟨w, rest, i, -, -, -, -, hx⟩ | ⟨rest, -, rfl⟩ | ⟨i, rest, k, n, -, -, rfl⟩
  · exact exec_keeps_selectionRecorded hs hx
  · exact exec_keeps_selectionRecorded (s := { s with inputs := rest }) hs hx
  · exact selectionRecorded_of_pairPc_none rfl
  · exact selectionRecorded_of_pairPc_none rfl

/-- With both right, a counter whose selection is recorded moves away from the threshold on its own side (R78 c). -/
theorem metaMoved_sel (c : Counter) : metaMoved c true true (sel c) = moved c (bias c) := by
  rw [sel_eq_of_bias]
  cases bias c <;> rfl

/-- Settles O45: the four cells of the rule table that O22 reads, at the selection that the paired PREDICT recorded. -/
theorem pairedTrainReinforcesTheRightPredictor : Obligations.PairedTrainReinforcesTheRightPredictor := by
  intro s t pc o hinv hf hp hpair hsel hreading
  obtain ⟨cm, h, cl, cg, hm, hh, hl, hg, hexec⟩ :=
    trainTournamentTrainsBothAndMovesMeta s t pc o hinv hf hp fun _ => hpair
  obtain ⟨c, hc, hlu⟩ := selectionRecorded_iff.1 hsel t pc hp hpair
  rw [metaIndex_eq] at hc ⊢
  obtain rfl : c = cm := Option.some.inj (hc.symm.trans hm)
  rw [hreading, hlu] at hexec
  refine ⟨_, _, c, _, bias cl, bias cg, hexec, rfl, localPred_of_entries hh hl, gsharePred_of_entry hg, hm,
    tblWrite_read_same (List.getElem?_eq_some_iff.1 hm).1, fun hpl hpg => ?_, fun hpl hpg => ?_,
    fun hpl hpg => ?_, fun hpl hpg => ?_⟩
  · rw [beq_iff_eq.2 hpl, beq_iff_eq.2 hpg]
    exact metaMoved_sel c
  · rw [beq_iff_eq.2 hpl, beq_false_of_ne hpg]
    rfl
  · rw [beq_false_of_ne hpl, beq_iff_eq.2 hpg]
    rfl
  · rw [beq_false_of_ne hpl, beq_false_of_ne hpg]
    rfl

end Sys2Proof.Machine
end

section
/-! SUPPORT. The statements of 45_always_taken.md: the completed commands of a predictor that has no state. -/

namespace Sys2Proof.Machine

/-- Settles O15: a word with op = 01 is this row at the block's KIND, and the kind rule gives taken and the predictor as it stood. -/
theorem predictAlwaysTakenAnswersTaken : Obligations.PredictAlwaysTakenAnswersTaken := by
  intro s pc hf hp
  have hkind : s.kind = .alwaysTaken := congrArg Predictor.kind hp
  have hexec : exec (.predictAlwaysTaken pc) s = .next (s.predicted pc .alwaysTaken true) :=
    exec_predict_of_rule hf hp rfl
  rw [← hp] at hexec
  refine ⟨fun w hw hop => ?_, hexec⟩
  obtain ⟨hdecode, -⟩ := everyWordDecodesByItsOpField s.cfg.pcWidth s.kind w
  obtain ⟨-, hpredict, -, -⟩ := hdecode hw
  rw [hpredict hop, hkind]
  rfl

/-- Settles O16: the kind rule gives the predictor as it stood, whatever the outcome. -/
theorem trainAlwaysTakenChangesNoPrediction : Obligations.TrainAlwaysTakenChangesNoPrediction := by
  intro s pc o hf hp hpair
  have hexec : exec (.trainAlwaysTaken pc o) s = .next (s.trainedTo .alwaysTaken) :=
    exec_train_of_rule hf hp hpair rfl
  rwa [← hp] at hexec

end Sys2Proof.Machine
end

section
/-! SUPPORT. The statements of 60_exceptions.md: what a command that raises leaves of the state, and the checks of a construction at the string interface. -/

namespace Sys2Proof.Machine

/-! What each raise says of the command that raised it (R52, R54, R60, R81). -/

/-- The instruction `i` on the state `s` can take the raise `r`: an index comes from a table access, a word is that of the reserved command, and a pairing violation is that of a TRAIN whose pc the monitor does not hold. -/
def State.canRaise (s : State) (i : Instr) : Raise → Prop
  | .indexOutOfRange _ => ∃ pc, i.command = .predict pc ∨ ∃ o, i.command = .train pc o
  | .reservedCommand w => i = .reserved w
  | .protocolViolation pc p => p = s.pairPc ∧ p ≠ some pc ∧ ∃ o, i.command = .train pc o

section
variable {s t : State} {i : Instr} {pc : Nat} {o : Bool} {r : Raise}

theorem canRaise_of_predictRule (hi : i.command = .predict pc)
    (h : predictRule s.cfg pc s.predictor = .error r) : s.canRaise i r := by
  obtain ⟨j, rfl⟩ := predictRule_error h
  exact ⟨pc, .inl hi⟩

theorem canRaise_of_trainRule (hi : i.command = .train pc o)
    (h : trainRule s.cfg pc o s.predictor = .error r) : s.canRaise i r := by
  obtain ⟨j, rfl⟩ := trainRule_error h
  exact ⟨pc, .inr ⟨o, hi⟩⟩

theorem canRaise_of_pairCheck (hi : i.command = .train pc o) (h : s.pairCheck pc = .error r) : s.canRaise i r := by
  obtain ⟨rfl, -, hpair⟩ := pairCheck_error h
  exact ⟨rfl, hpair, o, hi⟩

/-- A command that ends with a code on a block that held none ends in a fault entry, from the state before it (R86). -/
theorem exec_raises (hf : s.fault = 0) (h : exec i s = .next t) (ht : t.fault ≠ 0) :
    ∃ r, t = s.raise r ∧ s.canRaise i r := by
  rcases exec_next h with ⟨hs, -⟩ | ⟨-, -, rfl⟩ | ⟨-, w, hi, rfl⟩ | ⟨-, pc, hi, rfl⟩ | ⟨-, pc, o, hi, rfl⟩
  · exact absurd hf hs
  · exact absurd hf ht
  · exact ⟨_, rfl, hi⟩
  · cases hp : predictRule s.cfg pc s.predictor with
    | error r => exact ⟨r, rfl, canRaise_of_predictRule hi hp⟩
    | ok q => rw [hp] at ht; exact absurd hf ht
  · rcases finishTrain_cases (s := s) (pc := pc) (trainRule s.cfg pc o s.predictor) with
      ⟨r, hr, e⟩ | ⟨r, -, hr, e⟩ | ⟨q, -, -, e⟩
    · exact ⟨r, e, canRaise_of_pairCheck hi hr⟩
    · exact ⟨r, e, canRaise_of_trainRule hi hr⟩
    · rw [e] at ht; exact absurd hf ht

end

/-- Settles O28: the only end with a code is the fault entry, which writes the code and the answer over the state before the command. -/
theorem faultsArePrecise : Obligations.FaultsArePrecise := by
  intro i s t hf h ht
  obtain ⟨r, rfl, hr⟩ := exec_raises hf h ht
  refine ⟨r, rfl, ?_⟩
  cases r with
  | indexOutOfRange j => rfl
  | reservedCommand w => exact ⟨rfl, hr⟩
  | protocolViolation pc p => exact ⟨rfl, hr⟩

/-! Construction at the string interface (R43, R44, R82 to R84, R96). -/

theorem kindOfString_eq_none_iff (kind : String) :
    Kind.ofString kind = none ↔ kind ∉ ["always_taken", "local", "gshare", "tournament"] := by
  unfold Kind.ofString
  split_ifs <;> simp [*]

theorem ofEntryCount_eq_none_iff (e : Int) : Size.ofEntryCount e = none ↔ e ∉ [(128 : Int), 1024, 4096] := by
  rw [← not_iff_not, not_not]
  exact (ofEntryCount_ne_none_iff e).trans (by simp)

theorem ofEntryCount_of_mem {e : Int} (h : e ∈ [(128 : Int), 1024, 4096]) :
    ∃ n : Size, Size.ofEntryCount e = some n ∧ (n.entries : Int) = e := by
  obtain rfl | rfl | rfl : e = 128 ∨ e = 1024 ∨ e = 4096 := by simpa using h
  · exact ⟨.n128, rfl, rfl⟩
  · exact ⟨.n1024, rfl, rfl⟩
  · exact ⟨.n4096, rfl, rfl⟩

theorem step_construct {s : State} {kind : String} {n : Int} {rest : List Input}
    (hin : s.inputs = .construct kind n :: rest) :
    step s = ({ s with inputs := rest } : State).constructed (newPredictor kind n) := by
  simp only [step, takeInput_cons hin, handle]

/-- Settles O38: the kind string is looked up before the entry count, and the block built from both is fresh. -/
theorem constructionGivesAFreshBlockOrNone : Obligations.ConstructionGivesAFreshBlockOrNone := by
  intro s kind e rest hin
  rw [step_construct hin, newPredictor]
  refine ⟨fun hkind => ?_, fun hkind he => ?_, fun k hk he => ?_⟩
  · rw [(kindOfString_eq_none_iff kind).2 hkind]
    rfl
  · obtain ⟨k, hk⟩ := Option.ne_none_iff_exists'.1 (mt (kindOfString_eq_none_iff kind).1 (not_not.2 hkind))
    rw [hk, (ofEntryCount_eq_none_iff e).2 he]
    rfl
  · obtain ⟨n, hn, hentries⟩ := ofEntryCount_of_mem he
    rw [hk, hn]
    exact ⟨_, rfl, fresh_isFresh .., fresh_kind .., hentries, rfl⟩

end Sys2Proof.Machine
end

section
/-! SUPPORT. The statements of 70_reset_and_hazards.md and two choices of the model: the step with nothing pending, the refusals, the successful end of a run, and the trace of paired commands. -/

namespace Sys2Proof.Machine

/-! A step with nothing pending, and the refusals (logs 7 to 9). -/

/-- The word on an empty command input is IDLE's at every block (R39, D11). -/
theorem decode_idleWord (pw : Nat) (k : Kind) : decode pw k idleWord = .ok .idle :=
  decode_encode_of_commandFits (c := .idle) trivial

/-- Settles O33: nothing pending stands for the IDLE word, which decodes to IDLE. -/
theorem stepWithNothingPendingRunsIdle : Obligations.StepWithNothingPendingRunsIdle := by
  intro s hin
  simp only [step, takeInput_nil hin, handle, decode_idleWord]

theorem decode_of_not_fits {pw w : Nat} (k : Kind) (h : 2 ^ (pw + 3) ≤ w) :
    decode pw k w = .error (.notACommandWord w) := by
  rw [decode, decodeCommand_of_not_fits h]

/-- Settles O35: the kind rules of another KIND refuse the block's predictor, and the decoder a number that is too long. -/
theorem refusalsAreOtherKindsAndLongWords : Obligations.RefusalsAreOtherKindsAndLongWords := by
  refine ⟨fun s i k hf hi hk => exec_otherKind hf hi hk, fun s w rest hin hw => ?_⟩
  have hd : decode s.cfg.pcWidth ({ s with inputs := rest } : State).kind w = .error (.notACommandWord w) :=
    decode_of_not_fits _ hw
  simp only [step, takeInput_cons hin, handle, hd]

/-! Runs of commands and resets (R105). -/

/-- The run is determined, so its successful end is a condition on its own observation. -/
theorem endsSuccessfully_iff {s u : State} {as : List (Option Answer)} (ho : observe s.inputs.length s = some (as, u)) :
    s.endsSuccessfully ↔
      u.fault = 0 ∧ ∀ a, (commandAnswers s.inputs as).getLast? = some a → ∃ r, a = .ok r := by
  constructor
  · rintro ⟨as', u', ho', hf, hlast⟩
    cases ho.symm.trans ho'
    exact ⟨hf, hlast⟩
  · rintro ⟨hf, hlast⟩
    exact ⟨as, u, ho, hf, hlast⟩

/-- A step on a command word takes it and records an answer, `Ok` exactly when no fault is held afterwards. -/
theorem step_command_answer {s t : State} {w : Nat} {rest : List Input} (hin : s.inputs = .command w :: rest)
    (hstep : step s = .next t) :
    t.inputs = rest ∧ ∃ a, t.answer = some a ∧ ((∃ r, a = .ok r) ↔ t.fault = 0) := by
  rcases step_next hstep with ⟨hnil, -⟩ | ⟨w', rest', i, hin', -, -, -, hx⟩ | ⟨rest', hin', -⟩ |
    ⟨i, rest', k, n, hin', ⟨a, b, rfl⟩ | ⟨a, b, rfl⟩, -⟩
  · simp [hin] at hnil
  · cases hin.symm.trans hin'
    obtain ⟨-, -, hinputs, -⟩ := exec_keeps hx
    exact ⟨hinputs, exec_answer hx⟩
  · cases hin.symm.trans hin'
  · cases hin.symm.trans hin'
  · cases hin.symm.trans hin'

/-- A run that begins with command words answers each of them, and goes on with the inputs after them. -/
theorem observe_commands_append {u : State} {k : Nat} {rest : List Input} (ws : List Nat) :
    ∀ (s : State) (as : List (Option Answer)),
    s.inputs = ws.map Input.command ++ rest → observe (ws.length + k) s = some (as, u) →
    ∃ (t : State) (bs : List Answer) (cs : List (Option Answer)), t.inputs = rest ∧
      observe k t = some (cs, u) ∧ bs.length = ws.length ∧ as = bs.map some ++ cs := by
  induction ws with
  | nil =>
    intro s as hin ho
    exact ⟨s, [], as, hin, by simpa using ho, rfl, rfl⟩
  | cons w ws ih =>
    intro s as hin ho
    rw [List.length_cons, Nat.add_right_comm] at ho
    obtain ⟨t, as, ht, hrest, rfl⟩ := observe_succ_iff.1 ho
    obtain ⟨htin, a, ha, -⟩ := step_command_answer hin ht
    obtain ⟨t', bs, cs, ht', hcs, hlen, rfl⟩ := ih t as htin hrest
    exact ⟨t', a :: bs, cs, ht', hcs, by simp [hlen], by simp [ha]⟩

/-- Resets keep a block that holds no fault so (R97). -/
theorem observe_resets_fault {u : State} (n : Nat) : ∀ (s : State) (as : List (Option Answer)),
    s.inputs = List.replicate n .reset → observe n s = some (as, u) → s.fault = 0 → u.fault = 0 := by
  induction n with
  | zero =>
    intro s as _ ho hf
    cases ho
    exact hf
  | succ n ih =>
    intro s as hin ho _
    obtain ⟨t, as, ht, hrest, -⟩ := observe_succ_iff.1 ho
    cases (step_reset hin).symm.trans ht
    exact ih _ as rfl hrest rfl

@[simp] theorem commandAnswers_resets (n : Nat) (as : List (Option Answer)) :
    commandAnswers (List.replicate n .reset) as = [] := by
  induction n generalizing as with
  | zero => simp [commandAnswers]
  | succ n ih => cases as <;> simp [List.replicate_succ, commandAnswers, ih]

theorem commandAnswers_commands_append (is : List Input) (as : List (Option Answer)) :
    ∀ (ws : List Nat) (bs : List Answer), bs.length = ws.length →
    commandAnswers (ws.map .command ++ is) (bs.map some ++ as) = bs ++ commandAnswers is as
  | [], [], _ => rfl
  | w :: ws, b :: bs, h => by
    simp [commandAnswers, commandAnswers_commands_append is as ws bs (by simpa using h)]

/-- What a run of commands with resets after them leaves: an answer of each command, and no fault if the last answer is `Ok`. -/
theorem observe_commands_resets {s u : State} {ws : List Nat} {w n : Nat} {as : List (Option Answer)}
    (hin : s.inputs = (ws ++ [w]).map Input.command ++ List.replicate n .reset)
    (ho : observe s.inputs.length s = some (as, u)) :
    ∃ (bs : List Answer) (a : Answer), commandAnswers s.inputs as = bs ++ [a] ∧ as[ws.length]? = some (some a) ∧
      ((∃ r, a = .ok r) → u.fault = 0) := by
  have hin' : s.inputs = ws.map Input.command ++ (.command w :: List.replicate n .reset) := by simp [hin]
  have hlen : s.inputs.length = ws.length + (n + 1) := by simp [hin']
  rw [hlen] at ho
  obtain ⟨t, bs, _, ht, hlast, hbs, rfl⟩ := observe_commands_append ws s as hin' ho
  obtain ⟨t', cs, hstep, hresets, rfl⟩ := observe_succ_iff.1 hlast
  obtain ⟨htin, a, ha, hok⟩ := step_command_answer ht hstep
  refine ⟨bs, a, ?_, ?_, fun hr => observe_resets_fault n t' cs htin hresets (hok.1 hr)⟩
  · rw [hin', commandAnswers_commands_append _ _ ws bs hbs, ha, commandAnswers, commandAnswers_resets]
  · rw [← hbs, ha]
    simp

/-- Settles O50: the last command's answer is `Ok` exactly when it left no fault, and the resets after it answer nothing and leave none. -/
theorem runsEndSuccessfullyByTheirLastCommand : Obligations.RunsEndSuccessfullyByTheirLastCommand := by
  refine ⟨fun s u ws w n as hin ho => ?_, fun s u as ho hf hends => hf ((endsSuccessfully_iff ho).1 hends).1⟩
  obtain ⟨bs, a, hanswers, hlast, hfault⟩ := observe_commands_resets hin ho
  rw [endsSuccessfully_iff ho, hanswers, hlast]
  rw [List.getLast?_concat]
  constructor
  · rintro ⟨-, hok⟩
    obtain ⟨r, rfl⟩ := hok a rfl
    exact ⟨r, rfl⟩
  · rintro ⟨r, hr⟩
    cases hr
    exact ⟨hfault ⟨r, rfl⟩, fun a ha => ⟨r, (Option.some.inj ha).symm⟩⟩

/-! A trace of paired commands (R102). -/

section
variable {s : State} {pc : Nat} {rest : List Input} (hinv : s.inv = true) (hf : s.fault = 0)
include hinv hf

/-- Under the invariant a PREDICT completes with a prediction, and the monitor holds its pc (R31, R53). -/
theorem step_predict_of_inv (hpc : pcFits s.cfg.pcWidth pc = true)
    (hin : s.inputs = .command (Command.predict pc).encode :: rest) :
    ∃ q b, step s = .next (({ s with inputs := rest } : State).predicted pc q b) ∧ q.ok s.cfg.size = true := by
  obtain ⟨-, hp, -, -⟩ := inv_iff.1 hinv
  obtain ⟨q, b, hq⟩ := predictRule_of_ok hp pc
  exact ⟨q, b, (step_command hin (decode_encode_of_commandFits hpc)).trans
    (exec_predict_of_rule (s := { s with inputs := rest }) hf rfl hq), predictRule_keeps_ok hp hq⟩

/-- Under the invariant a TRAIN of the monitored pc completes (R31, R52, R53). -/
theorem step_train_of_inv {o : Bool} (hpc : pcFits s.cfg.pcWidth pc = true) (hpair : s.pairPc = some pc)
    (hin : s.inputs = .command (Command.train pc o).encode :: rest) :
    ∃ q, step s = .next (({ s with inputs := rest } : State).trainedTo q) ∧ q.ok s.cfg.size = true := by
  obtain ⟨-, hp, -, -⟩ := inv_iff.1 hinv
  obtain ⟨q, hq⟩ := trainRule_of_ok hp pc o
  exact ⟨q, (step_command hin (decode_encode_of_commandFits hpc)).trans
    (exec_train_of_rule (s := { s with inputs := rest }) hf rfl (fun _ => hpair) hq), (trainRule_keeps_ok hp hq).1⟩

/-- The two commands of one branch answer a prediction and nothing, and keep what the next branch needs. -/
theorem observe_branch {o : Bool} (hpc : pcFits s.cfg.pcWidth pc = true)
    (hin : s.inputs = .command (Command.predict pc).encode :: .command (Command.train pc o).encode :: rest) :
    ∃ (b : Bool) (t : State), t.inv = true ∧ t.fault = 0 ∧ t.cfg = s.cfg ∧ t.inputs = rest ∧
      ∀ k as u, observe k t = some (as, u) →
        observe (k + 2) s = some (some (.ok (.pred b)) :: some (.ok .none) :: as, u) := by
  obtain ⟨q, b, hpredict, hq⟩ := step_predict_of_inv hinv hf hpc hin
  have hinv' := predicted_inv (s := { s with inputs := .command (Command.train pc o).encode :: rest }) hinv b hpc hq
  obtain ⟨q', htrain, hq'⟩ := step_train_of_inv hinv' hf hpc rfl rfl
  exact ⟨b, _, trainedTo_inv (s := { State.predicted _ pc q b with inputs := rest }) hinv' hq', hf, rfl, rfl,
    fun k as u ho => observe_succ_iff.2 ⟨_, _, hpredict, observe_succ_iff.2 ⟨_, _, htrain, ho, rfl⟩, rfl⟩⟩

end

theorem traceInputs_length (trace : List (Nat × Bool)) : (traceInputs trace).length = 2 * trace.length := by
  induction trace with
  | nil => rfl
  | cons x trace ih => simp only [traceInputs, List.length_cons, ih]; omega

/-- Along a trace every answer is `Ok`, one prediction for each branch, and the state after it is again one a trace can run from. -/
theorem observe_trace (trace : List (Nat × Bool)) : ∀ s : State, s.inv = true → s.fault = 0 →
    (∀ x ∈ trace, x.1 < 2 ^ s.cfg.pcWidth) → s.inputs = traceInputs trace →
    ∃ as u, observe (2 * trace.length) s = some (as, u) ∧ u.inputs = [] ∧ u.inv = true ∧ u.fault = 0 ∧
      (predictions as).length = trace.length ∧ ∀ x ∈ as, ∃ r, x = some (.ok r) := by
  induction trace with
  | nil =>
    intro s hinv hf _ hin
    exact ⟨[], s, rfl, hin, hinv, hf, rfl, by simp⟩
  | cons x trace ih =>
    intro s hinv hf hpcs hin
    obtain ⟨hpc, hpcs⟩ := List.forall_mem_cons.1 hpcs
    obtain ⟨b, t, htinv, htf, htcfg, htin, hstep⟩ := observe_branch hinv hf (pcFits_iff.2 hpc) hin
    obtain ⟨as, u, ho, huin, huinv, huf, hpreds, hoks⟩ := ih t htinv htf (htcfg ▸ hpcs) htin
    exact ⟨_, u, hstep _ as u ho, huin, huinv, huf, by simp [predictions, hpreds], by simpa using hoks⟩

theorem mem_of_mem_commandAnswers {a : Answer} (is : List Input) (as : List (Option Answer))
    (h : a ∈ commandAnswers is as) : some a ∈ as := by
  induction is, as using commandAnswers.induct with
  | case1 w is b as ih =>
    rcases List.mem_cons.1 h with rfl | h
    · exact List.mem_cons_self
    · exact List.mem_cons_of_mem _ (ih h)
  | case2 i is x as hx ih =>
    rw [commandAnswers] at h
    · exact List.mem_cons_of_mem _ (ih h)
    · exact hx
  | case3 => simp [commandAnswers] at h

/-- Settles O48, by induction on the trace: no answer of its run is a fault, so the last is not. -/
theorem pairedTracesRunWithoutFault : Obligations.PairedTracesRunWithoutFault := by
  intro s trace hinv hf hpcs hin
  obtain ⟨as, u, ho, huin, huinv, huf, hpreds, hoks⟩ := observe_trace trace s hinv hf hpcs hin
  have hlen : s.inputs.length = 2 * trace.length := by rw [hin, traceInputs_length]
  refine ⟨⟨as, u, hlen ▸ ho, huf, fun a ha => ?_⟩, as, u, ho, huin, huinv, hpreds⟩
  obtain ⟨r, hr⟩ := hoks _ (mem_of_mem_commandAnswers _ _ (List.mem_of_getLast? ha))
  exact ⟨r, Option.some.inj hr⟩

end Sys2Proof.Machine
end
